-- ==== Sys2Proof/Word.lean ====
section
/-! DEFINITION. The word types of the frame codec core.

`00_scope.md` R8: a byte (`u8`) is an unsigned 8-bit value, a `u32` an unsigned 32-bit value; no value of the block is
signed. Cursors, lengths, indices and capacities are unbounded naturals (R8: "Arithmetic on cursors and lengths is on
unbounded naturals"), so they are `Nat` and never bit vectors. -/

namespace Sys2Proof

/-- A `u8` (R8). -/
abbrev Byte := BitVec 8

/-- A `u32` (R8): the CRC accumulator, a command word (R70) and a response word (R74). -/
abbrev Word := BitVec 32

end Sys2Proof
end

