-- ==== Sys2Proof/Config.lean ====
section
/-! DEFINITION. The build parameters of a block (`00_scope.md` R5 to R7).

A build fixes `MAXP`, `ENC_MODE` and `DEC_MODE`; no command changes any of them. `CRCLEN`, `ENC_CAP`, `DEC_CAP` and the
CRC functions of R5 follow from these and from constants: they stand in `Machine/Params.lean` and `Machine/Crc.lean`. -/

namespace Sys2Proof

/-- An integrity mode (R5, R7; R13 "per-instance configuration selecting whether a CRC-32 trailer is
produced/verified"): `With` or `Without` a CRC trailer. -/
inductive Mode where
  | withCrc
  | withoutCrc
  deriving DecidableEq, Repr

/-- The parameters one build of the block fixes (R5). The range of `maxp` is R6's, checked by `Config.wf`. -/
structure Config where
  /-- `MAXP`: the declared maximum payload length, in bytes. -/
  maxp : Nat
  /-- `ENC_MODE`: the integrity mode of the encoder. -/
  encMode : Mode
  /-- `DEC_MODE`: the integrity mode of the decoder (a separate parameter: R7). -/
  decMode : Mode
  deriving DecidableEq, Repr

/-- DESIGN CHOICE, unsafe (log entry 2): the build whose state after the hardware reset is `State.reset`. The spec leaves the
parameters open (`92_eei_decisions.md` P1 to P3); these are the values most vectors of `95_test_vectors.md` are run at.
Every statement about the machine holds of every build: it quantifies over the state, which carries its build. -/
def Config.sample : Config := { maxp := 4, encMode := .withCrc, decMode := .withCrc }

end Sys2Proof
end

