-- ==== Sys2Proof/Syntax.lean ====
section
/-! DEFINITION. The commands of the block: one constructor per row of `spec/opcode_table.json`
(`30_encoding.md` R72). The pseudo-instructions of R78 are host-side sequences, not commands: they stand in
`Machine/Pseudo.lean`. -/

namespace Sys2Proof

/-- The nine commands (R72). A B-form operand is a byte; an I-form operand is an index, an unsigned number which R71
bounds by 2^24 - 1 (`Instr.wf`). -/
inductive Instr where
  /-- `ENC.RESET`, OP 0x10, N-form (R101). -/
  | encReset
  /-- `ENC.PUT b`, OP 0x11, B-form (R102). -/
  | encPut (b : Byte)
  /-- `ENC.FIN`, OP 0x12, N-form (R103). -/
  | encFin
  /-- `ENC.READ i`, OP 0x13, I-form (R104). -/
  | encRead (i : Nat)
  /-- `ENC.STAT`, OP 0x14, N-form (R105). -/
  | encStat
  /-- `DEC.RESET`, OP 0x20, N-form (R131). -/
  | decReset
  /-- `DEC.PUT b`, OP 0x21, B-form (R132). -/
  | decPut (b : Byte)
  /-- `DEC.READ i`, OP 0x22, I-form (R143). -/
  | decRead (i : Nat)
  /-- `DEC.STAT`, OP 0x23, N-form (R144). -/
  | decStat
  deriving DecidableEq, Repr

end Sys2Proof
end

