-- ==== Sys2Proof/WellFormed.lean ====
section
/-! DEFINITION. Which commands and which builds are those of the spec. -/

namespace Sys2Proof

/-- An I-form index is "an unsigned value from 0 to 2^24 - 1" (`30_encoding.md` R71). Bytes are 8 bits by their type, and
an N-form command has no operand. -/
def Instr.wf : Instr → Bool
  | .encReset => true
  | .encPut _ => true
  | .encFin => true
  | .encRead i => decide (i < 2 ^ 24)
  | .encStat => true
  | .decReset => true
  | .decPut _ => true
  | .decRead i => decide (i < 2 ^ 24)
  | .decStat => true

/-- `MAXP <= 8388602` (`00_scope.md` R6: "A build with a larger `MAXP` is not a build of this spec"). `MAXP = 0` is
allowed (R5, D29). -/
def Config.wf (c : Config) : Bool := decide (c.maxp ≤ 8388602)

end Sys2Proof
end

