-- ==== Sys2Proof/Decode.lean ====
section
/-! DEFINITION. The command word (`30_encoding.md` R70 to R73): the decoder, total on every 32-bit word and refusing a
reserved encoding by name, then the encoder, written from the same tables.

A command word crosses the interface whole and has no byte order (`20_memory.md` R46), so the decoder takes the word
itself. -/

namespace Sys2Proof

/-- Why a command word is a reserved encoding (R73). -/
inductive Illegal where
  /-- `OP` is none of the nine opcodes of R72. -/
  | reservedOpcode (op : BitVec 8)
  /-- The opcode is valid and a reserved `ARG` bit of its form is not 0 (R71). -/
  | reservedArgBits (op : BitVec 8) (arg : BitVec 24)
  deriving DecidableEq, Repr

/-- `OP`, bits 31:24 (R70). -/
def opField (w : Word) : BitVec 8 := w.extractLsb' 24 8

/-- `ARG`, bits 23:0 (R70). -/
def argField (w : Word) : BitVec 24 := w.extractLsb' 0 24

/-- N-form (R71): no operand, "`ARG` must be 0". -/
def decodeN (w : Word) (i : Instr) : Except Illegal Instr :=
  if argField w = 0#24 then .ok i else .error (.reservedArgBits (opField w) (argField w))

/-- B-form (R71): "`ARG[23:8]` must be 0, and the operand is the byte `b = ARG[7:0]`". -/
def decodeB (w : Word) (f : Byte → Instr) : Except Illegal Instr :=
  if w.extractLsb' 8 16 = 0#16 then .ok (f (w.extractLsb' 0 8))
  else .error (.reservedArgBits (opField w) (argField w))

/-- I-form (R71): "the operand is the index `i = zext(ARG[23:0])`"; the form has no reserved bit. -/
def decodeI (w : Word) (f : Nat → Instr) : Except Illegal Instr := .ok (f (argField w).toNat)

/-- The opcode map (R72); every other opcode is reserved (R73). -/
def decode (w : Word) : Except Illegal Instr :=
  if opField w = 0x10#8 then decodeN w .encReset
  else if opField w = 0x11#8 then decodeB w .encPut
  else if opField w = 0x12#8 then decodeN w .encFin
  else if opField w = 0x13#8 then decodeI w .encRead
  else if opField w = 0x14#8 then decodeN w .encStat
  else if opField w = 0x20#8 then decodeN w .decReset
  else if opField w = 0x21#8 then decodeB w .decPut
  else if opField w = 0x22#8 then decodeI w .decRead
  else if opField w = 0x23#8 then decodeN w .decStat
  else .error (.reservedOpcode (opField w))

/-- A word from its opcode and its argument: `OP << 24 OR ARG` (R77). -/
def commandWord (op : BitVec 8) (arg : BitVec 24) : Word := op ++ arg

/-- A B-form argument: the byte in bits 7:0, bits 23:8 zero (R71). -/
def argOfByte (b : Byte) : BitVec 24 := b.setWidth 24

/-- The word of a well-formed command (R72, R77). An index of 2^24 or more, which no word carries, is cut to 24 bits. -/
def encode : Instr → Word
  | .encReset => commandWord 0x10#8 0#24
  | .encPut b => commandWord 0x11#8 (argOfByte b)
  | .encFin => commandWord 0x12#8 0#24
  | .encRead i => commandWord 0x13#8 (BitVec.ofNat 24 i)
  | .encStat => commandWord 0x14#8 0#24
  | .decReset => commandWord 0x20#8 0#24
  | .decPut b => commandWord 0x21#8 (argOfByte b)
  | .decRead i => commandWord 0x22#8 (BitVec.ofNat 24 i)
  | .decStat => commandWord 0x23#8 0#24

/-- One row of `spec/opcode_table.json`: a word `w` is of this row when `w AND mask = match`. -/
structure OpcodeRow where
  mnemonic : String
  mask : Word
  pattern : Word
  deriving DecidableEq, Repr

/-- Does the word fall under the row? -/
def OpcodeRow.covers (r : OpcodeRow) (w : Word) : Bool := decide (w &&& r.mask = r.pattern)

/-- The row of `spec/opcode_table.json` each command belongs to, its mnemonic letter for letter. -/
def opcodeRow : Instr → OpcodeRow
  | .encReset => ⟨"ENC.RESET", 0xFFFFFFFF#32, 0x10000000#32⟩
  | .encPut _ => ⟨"ENC.PUT", 0xFFFFFF00#32, 0x11000000#32⟩
  | .encFin => ⟨"ENC.FIN", 0xFFFFFFFF#32, 0x12000000#32⟩
  | .encRead _ => ⟨"ENC.READ", 0xFF000000#32, 0x13000000#32⟩
  | .encStat => ⟨"ENC.STAT", 0xFFFFFFFF#32, 0x14000000#32⟩
  | .decReset => ⟨"DEC.RESET", 0xFFFFFFFF#32, 0x20000000#32⟩
  | .decPut _ => ⟨"DEC.PUT", 0xFFFFFF00#32, 0x21000000#32⟩
  | .decRead _ => ⟨"DEC.READ", 0xFF000000#32, 0x22000000#32⟩
  | .decStat => ⟨"DEC.STAT", 0xFFFFFFFF#32, 0x23000000#32⟩

/-- The nine rows of `spec/opcode_table.json`, in its order. -/
def opcodeTable : List OpcodeRow :=
  [opcodeRow .encReset, opcodeRow (.encPut 0#8), opcodeRow .encFin, opcodeRow (.encRead 0), opcodeRow .encStat,
    opcodeRow .decReset, opcodeRow (.decPut 0#8), opcodeRow (.decRead 0), opcodeRow .decStat]

/-- The word of `nbits` bits that the host's table numbers give (every row of the table has 32 bits). -/
def tableWord (nbits w : Nat) : Word := BitVec.ofNat 32 (w % 2 ^ nbits)

/-- The command the decoder reads from an instruction whose bits are `w`, numbered as `spec/opcode_table.json` numbers
them; `none` where it refuses. -/
def decodeTableWord (nbits w : Nat) : Option Instr := (decode (tableWord nbits w)).toOption

end Sys2Proof
end

