-- ==== Sys2Proof/Machine/Params.lean ====
section
/-! DEFINITION. The fixed values of the spec and the capacities a build derives from `MAXP`
(`00_scope.md` R5, `30_encoding.md` R60). -/

namespace Sys2Proof.Machine

/-- START (R60). -/
def startByte : Byte := 0x02#8

/-- END (R60). -/
def endByte : Byte := 0x03#8

/-- ESC (R60). -/
def escByte : Byte := 0x1B#8

/-- `CRCLEN`: the CRC trailer's length in bytes (R5). -/
def crcLen : Nat := 4

/-- `ENC_CAP = 1 + 2*(MAXP + CRCLEN) + 1`, in both modes (R5, D8). -/
def encCap (c : Config) : Nat := 1 + 2 * (c.maxp + crcLen) + 1

/-- `DEC_CAP = MAXP + CRCLEN`, in both modes (R5, D9). -/
def decCap (c : Config) : Nat := c.maxp + crcLen

/-- `CRC_INIT = 0x00000000` (R5, `43_crc.md` R171). -/
def crcInit : Word := 0x00000000#32

end Sys2Proof.Machine
end

