-- ==== Sys2Proof/Machine/Crc.lean ====
section
/-! DEFINITION. The CRC-32 engine (`43_crc.md` R170 to R173): pure functions, no state of their own. The
instance is R171's (DESIGN CHOICE, unsafe: log entry 7). -/

namespace Sys2Proof.Machine

/-- One turn of `CRC_STEP`'s loop (R171): `if r[0] = 1 then r <- (r >> 1) XOR 0xEDB88320 else r <- r >> 1`. -/
def crcBit (r : Word) : Word := if r.getLsbD 0 then (r >>> 1) ^^^ 0xEDB88320#32 else r >>> 1

/-- `CRC_STEP` (R171): one byte through the reflected CRC-32 register. -/
def crcStep (r : Word) (b : Byte) : Word := Nat.repeat crcBit 8 (r ^^^ b.setWidth 32)

/-- `CRC_UPDATE(a, b) = ~CRC_STEP(~a, b)` (R171). -/
def crcUpdate (a : Word) (b : Byte) : Word := ~~~(crcStep (~~~a) b)

/-- `CRC_FINAL(a) = a` (R171). -/
def crcFinal (a : Word) : Word := a

/-- `CRC(s)` (R172): a left fold of `CRC_UPDATE` from `CRC_INIT`, in the order the bytes are given. -/
def crc (bytes : List Byte) : Word := crcFinal (bytes.foldl crcUpdate crcInit)

/-- A 32-bit value as four bytes, most significant first (`20_memory.md` R44):
`c[31:24], c[23:16], c[15:8], c[7:0]`. -/
def beBytes (c : Word) : List Byte := [c.extractLsb' 24 8, c.extractLsb' 16 8, c.extractLsb' 8 8, c.extractLsb' 0 8]

/-- Bytes read as one big-endian value (`20_memory.md` R45): of four bytes,
`b0 << 24 OR b1 << 16 OR b2 << 8 OR b3`. -/
def beWord (bytes : List Byte) : Word := bytes.foldl (fun a b => (a <<< 8) ||| b.setWidth 32) 0#32

end Sys2Proof.Machine
end

