-- ==== Sys2Proof/Machine/Memory.lean ====
section
/-! DEFINITION. A buffer of the block: a byte array addressed by index (`20_memory.md` R40), held as the list of the bytes
that something has written, in rising order of index.

An unlisted index holds no value: the spec calls such a byte "unspecified" and lets a model hold anything there
(`10_state.md` R34, `93_implementation_defined.md` I2). DESIGN CHOICE, safe: log entry 4. Capacities are the machine's business
(`Machine/Ops.lean`), not the list's. -/

namespace Sys2Proof.Machine

/-- A buffer's written bytes: (index, byte) pairs. -/
abbrev Memory := List Host.Cell

/-- The canonical form: indices strictly rising. (An unlisted index reads as no value, so no entry can repeat what an
unlisted index reads as.) -/
abbrev Memory.wf (m : Memory) : Prop := List.Pairwise (fun c d => c.1 < d.1) m

/-- The byte at an index; `none` where nothing has written one. -/
def Memory.read : Memory → Nat → Option Byte
  | [], _ => none
  | (a, v) :: m, i => if a = i then some v else Memory.read m i

/-- Writes one byte, keeping the canonical form. -/
def Memory.write : Memory → Nat → Byte → Memory
  | [], i, v => [(i, v)]
  | (a, u) :: m, i, v =>
    if i < a then (i, v) :: (a, u) :: m
    else if i = a then (i, v) :: m
    else (a, u) :: Memory.write m i v

/-- Writes a byte sequence at rising indices from `i` on, first byte first (`20_memory.md` R43). -/
def Memory.writeSeq : Memory → Nat → List Byte → Memory
  | m, _, [] => m
  | m, i, b :: bs => Memory.writeSeq (m.write i b) (i + 1) bs

end Sys2Proof.Machine
end

