-- ==== Sys2Proof/Machine/State.lean ====
section
/-! DEFINITION. The state of the block as plain data, the reasons a step can stop, and the state after the hardware reset
(`10_state.md` R20 to R34).

The architectural state is R20's table: `ebuf`, `ecur`, `eacc`, `dbuf`, `dcur`, `dstate`. "No other state exists." Three
more fields make the block runnable as one function of one state: the build it is an instance of (DESIGN CHOICE, safe: log
entry 1), what the host will do next, and the responses the host has been given (DESIGN CHOICE, unsafe: log entry 3). -/

namespace Sys2Proof.Machine

/-- The decoder's state variant (R26): exactly these three (`90_conflicts.md` C7: no fourth state is invented). -/
inductive DState where
  | waitingForStart
  | accepting
  | escaped
  deriving DecidableEq, Repr

/-- The two address spaces (`20_memory.md` R40). -/
inductive Buffer where
  | ebuf
  | dbuf
  deriving DecidableEq, Repr

/-- What the host does to the block next (`00_scope.md` R16, `30_encoding.md` R79, `70_reset_and_hazards.md` R230,
R231). -/
inductive HostInput where
  /-- The host presents one command word (R79). -/
  | command (w : Word)
  /-- The host asserts the reset input between commands (R230). -/
  | reset
  /-- The host asserts the reset input while the command `w` is in progress: the command is not answered, and "its effect
  is either complete or absent; a model admits both" (R231). `completed` says which; both are inputs
  (DESIGN CHOICE, safe: log entry 8). -/
  | resetDuring (w : Word) (completed : Bool)
  deriving DecidableEq, Repr

structure State where
  /-- The build parameters (R5). Constant: no step changes them. -/
  cfg : Config
  /-- `EBUF`: the frame under construction (R20). -/
  ebuf : Memory
  /-- `ecur`: the encoder's write cursor (R23). -/
  ecur : Nat
  /-- `eacc`: the encoder's running CRC accumulator (R24). -/
  eacc : Word
  /-- `DBUF`: the unescaped bytes collected for the current frame (R20). -/
  dbuf : Memory
  /-- `dcur`: the decoder's write cursor (R27). -/
  dcur : Nat
  /-- `dstate`: the decoder's state variant (R26). -/
  dstate : DState
  /-- What the host will do, next first: the block's input, not storage of the block (R17). -/
  inputs : List HostInput
  /-- The response words delivered so far, oldest first: response k answers command k (R51, R79). -/
  responses : List Word
  deriving DecidableEq, Repr

/-- Why a step stops. No state that meets the machine's invariant raises either (`Safety.lean`). -/
inductive Fault where
  /-- A buffer is read at an index its address space does not have (R40: `EBUF` has indices `0 .. ENC_CAP-1`, `DBUF`
  `0 .. DEC_CAP-1`). Raised by `Ops.memRead`, for `ENC.READ`, `DEC.READ` and the validation at END, in states whose
  cursor is above the buffer's capacity, which no run reaches (R27). SAFE: the model stops where the spec gives no
  byte. -/
  | indexOutsideBuffer (b : Buffer) (i : Nat)
  /-- A buffer byte is read that nothing has written (R34 "unspecified"). Raised by `Ops.memRead`, for the same three, in
  states whose cursor is above a byte nothing has written, which no run reaches (R31, R41: such a byte is "never
  readable"). SAFE: the model stops where the spec gives no byte. -/
  | byteNeverWritten (b : Buffer) (i : Nat)
  deriving DecidableEq, Repr

/-- Why a step has no meaning. -/
inductive Refusal where
  /-- A command that has no meaning yet. No arm of `exec` raises it: every command has its meaning. SAFE. -/
  | notModelled (mnemonic : String)
  deriving DecidableEq, Repr

/-- The state of a build after the hardware reset (R34, R230): `EBUF[0] = START`, `ecur = 1`, `eacc = CRC_INIT`, `dcur = 0`,
`dstate = WaitingForStart`; no other buffer byte has a value; the host has done nothing yet. -/
def State.resetOf (c : Config) : State where
  cfg := c
  ebuf := [(0, startByte)]
  ecur := 1
  eacc := crcInit
  dbuf := []
  dcur := 0
  dstate := .waitingForStart
  inputs := []
  responses := []

/-- The state after the hardware reset of the build `Config.sample` (DESIGN CHOICE, unsafe: log entry 2). -/
def State.reset : State := State.resetOf Config.sample

end Sys2Proof.Machine
end

