-- ==== Sys2Proof/Machine/Flags.lean ====
section
/-! DEFINITION. The response word, this block's "flags" (`00_scope.md` R12; `30_encoding.md` R74, R75): its fields, their
codes, and the word they make. No flag is sticky (`10_state.md` R29): a response is the only report of an outcome. -/

namespace Sys2Proof.Machine

/-- The outcome codes a response can carry (R75); codes 0x6 to 0xD are reserved and never produced. -/
inductive Status where
  | ok
  | frame
  | noRoom
  | exhausted
  | corrupt
  | integrity
  | badIndex
  | illegal
  deriving DecidableEq, Repr

/-- `STATUS`, bits 31:28 (R75). -/
def Status.code : Status → BitVec 4
  | .ok => 0x0#4
  | .frame => 0x1#4
  | .noRoom => 0x2#4
  | .exhausted => 0x3#4
  | .corrupt => 0x4#4
  | .integrity => 0x5#4
  | .badIndex => 0xE#4
  | .illegal => 0xF#4

/-- The status a code stands for; a reserved code stands for none (R75, `93_implementation_defined.md` I8). -/
def Status.ofCode (c : BitVec 4) : Option Status :=
  if c = 0x0#4 then some .ok
  else if c = 0x1#4 then some .frame
  else if c = 0x2#4 then some .noRoom
  else if c = 0x3#4 then some .exhausted
  else if c = 0x4#4 then some .corrupt
  else if c = 0x5#4 then some .integrity
  else if c = 0xE#4 then some .badIndex
  else if c = 0xF#4 then some .illegal
  else none

/-- `DSTATE`, bits 26:25: the code of the decoder's state (R26). -/
def DState.code : DState → BitVec 2
  | .waitingForStart => 0#2
  | .accepting => 1#2
  | .escaped => 2#2

/-- The decoder's state a code stands for; code 3 is never held (R26, `93_implementation_defined.md` I7). -/
def DState.ofCode (c : BitVec 2) : Option DState :=
  if c = 0#2 then some .waitingForStart
  else if c = 1#2 then some .accepting
  else if c = 2#2 then some .escaped
  else none

/-- `MODE`, bit 24: 1 for `With`, 0 for `Without` (R74). -/
def modeBit : Mode → Bool
  | .withCrc => true
  | .withoutCrc => false

/-- A response before it is laid out in its word (R74). "A field not defined for a command's outcome is 0": the defaults
are the values whose code is 0. -/
structure Response where
  status : Status
  cons : Bool := false
  dstate : DState := .waitingForStart
  mode : Bool := false
  value : BitVec 24
  deriving DecidableEq, Repr

/-- A response with a status and a VALUE, every other field 0. A cursor or a length of a build of this spec fits the 24
bits (`00_scope.md` R6; DEDUCED, safe: log entry 10). -/
def Response.of (st : Status) (v : Nat) : Response := { status := st, value := BitVec.ofNat 24 v }

/-- The same with `CONS = 1`: a `DEC.PUT` whose byte was consumed (R74). -/
def Response.consumed (st : Status) (v : Nat) : Response := { status := st, cons := true, value := BitVec.ofNat 24 v }

/-- The response word (R74): `STATUS[31:28]`, `CONS[27]`, `DSTATE[26:25]`, `MODE[24]`, `VALUE[23:0]`. -/
def Response.toWord (r : Response) : Word :=
  r.status.code ++ BitVec.ofBool r.cons ++ r.dstate.code ++ BitVec.ofBool r.mode ++ r.value

/-- A host's reading of a response word. It refuses a reserved status and `DSTATE` 3
(`93_implementation_defined.md` I7, I8). -/
def Response.ofWord (w : Word) : Option Response :=
  match Status.ofCode (w.extractLsb' 28 4), DState.ofCode (w.extractLsb' 25 2) with
  | some st, some d =>
    some { status := st, cons := w.getLsbD 27, dstate := d, mode := w.getLsbD 24, value := w.extractLsb' 0 24 }
  | _, _ => none

end Sys2Proof.Machine
end

