-- ==== Sys2Proof/Machine/Operands.lean ====
section
/-! DEFINITION. What the block makes of an operand: the class and the wire form of a byte (`30_encoding.md` R60 to R68),
and the window test of an index (`20_memory.md` R41). The three argument forms of R71 are read in `Decode.lean`. -/

namespace Sys2Proof.Machine

/-- `isSentinel(b)` (R61). -/
def isSentinel (b : Byte) : Bool := b == startByte || b == endByte || b == escByte

/-- The four classes of a received byte (R67). -/
inductive ByteClass where
  | start
  | fin
  | esc
  | other
  deriving DecidableEq, Repr

/-- `class(b)` (R67): START, END, ESC, or OTHER for the remaining 253 values. -/
def classify (b : Byte) : ByteClass :=
  if b = startByte then .start
  else if b = endByte then .fin
  else if b = escByte then .esc
  else .other

/-- `esc(b)`, the wire form of a payload or trailer byte (R62): `[ESC, ~b]` for a sentinel, `[b]` for every other byte. -/
def wireForm (b : Byte) : List Byte := if isSentinel b then [escByte, ~~~b] else [b]

/-- May the host read index `i` of a buffer whose cursor is `cursor` (R41: "only the window below the cursor")? -/
def inWindow (i cursor : Nat) : Bool := decide (i < cursor)

end Sys2Proof.Machine
end

