-- ==== Sys2Proof/Machine/Ops.lean ====
section
/-! DEFINITION. The operations the commands share: the two buffer primitives, ending a command, the encoder's append step,
the decoder's reset step and validation, and the hardware reset. -/

namespace Sys2Proof.Machine

/-- What a command or a step answers. -/
abbrev Result := Host.Outcome State Fault Refusal

/-! ### The buffers (`00_scope.md` R10, `20_memory.md` R40 to R42) -/

/-- `capacity(S)` (R10, R40). -/
def capacity (s : State) : Buffer → Nat
  | .ebuf => encCap s.cfg
  | .dbuf => decCap s.cfg

/-- The bytes of a buffer. -/
def bufferOf (s : State) : Buffer → Memory
  | .ebuf => s.ebuf
  | .dbuf => s.dbuf

/-- `MemRead(S, i, 1)` (R10). An index the buffer does not have, and a byte nothing has written, stop the machine. -/
def memRead (s : State) (b : Buffer) (i : Nat) : Except Fault Byte :=
  if i < capacity s b then
    match (bufferOf s b).read i with
    | some v => .ok v
    | none => .error (.byteNeverWritten b i)
  else .error (.indexOutsideBuffer b i)

/-- `MemWrite(EBUF, i, 1, b)` for each byte of a sequence, at rising indices from `i` on. Every caller has checked the
room: in every state, the indices written are below `ENC_CAP` (R10; `encAppend_inside` and its neighbours in `Laws`). -/
def writeEbuf (i : Nat) (bytes : List Byte) (s : State) : State := { s with ebuf := s.ebuf.writeSeq i bytes }

/-- `MemWrite(DBUF, i, 1, v)`. Its one caller has checked `i < DEC_CAP`. -/
def writeDbuf (i : Nat) (v : Byte) (s : State) : State := { s with dbuf := s.dbuf.write i v }

/-- The first `n` bytes of a buffer, in index order. -/
def readFirst (s : State) (b : Buffer) : Nat → Except Fault (List Byte)
  | 0 => .ok []
  | n + 1 =>
    match readFirst s b n with
    | .error f => .error f
    | .ok bytes =>
      match memRead s b n with
      | .error f => .error f
      | .ok v => .ok (bytes ++ [v])

/-! ### Ending a command (`00_scope.md` R11, `60_exceptions.md` R200)

The block has no trap: every failure ends its command with a status in that command's response, and nothing is saved or
redirected (R200, R210). So the one shared operation of this machine that stands where another has exception entry is
`raise`, and there is nothing to return from (R211). -/

/-- Delivers the response of the command that ends here: exactly one word (`30_encoding.md` R79). -/
def answer (r : Response) (s : State) : State := { s with responses := s.responses ++ [r.toWord] }

/-- `respond <response>`: the command ends with this response (R11). -/
def respond (r : Response) (s : State) : Result := .next (answer r s)

/-- `raise <response>`: "ends the command at once and delivers a response with that status and value. State writes made
earlier in the same pseudocode stay in effect: there is no rollback" (R11); `respond` "is the same ending". -/
def raise (r : Response) (s : State) : Result := respond r s

/-- A reserved encoding: `ILLEGAL` with value 0 and no change (`30_encoding.md` R73, `60_exceptions.md` R206). -/
def illegalCommand (s : State) : Result := raise (.of .illegal 0) s

/-! ### The encoder (`41_encoder.md`) -/

/-- `EncAppend(b)` (R100): the wire form of one byte at the cursor, or nothing at all (`none`); one slot is kept for END.
The accumulator is not touched. -/
def encAppend (b : Byte) (s : State) : Option State :=
  if s.ecur + (wireForm b).length > encCap s.cfg - 1 then none
  else some { writeEbuf s.ecur (wireForm b) s with ecur := s.ecur + (wireForm b).length }

/-- `EncAppend` of each byte in turn, stopping at the first that does not fit; the bytes before it stay (R103). The second
component says whether all were appended. -/
def encAppendAll : List Byte → State → State × Bool
  | [], s => (s, true)
  | b :: bs, s =>
    match encAppend b s with
    | none => (s, false)
    | some t => encAppendAll bs t

/-- The trailer step of `ENC.FIN` (R103, `43_crc.md` R174): in `With` mode, `CRC_FINAL(eacc)` big-endian, each byte through
`EncAppend`; in `Without` mode, nothing. -/
def encTrailer (s : State) : State × Bool :=
  match s.cfg.encMode with
  | .withCrc => encAppendAll (beBytes (crcFinal s.eacc)) s
  | .withoutCrc => (s, true)

/-- The accumulator after an appended payload byte (R102, `10_state.md` R24): updated over the unescaped byte, only in
`With` mode. -/
def encAccumulate (b : Byte) (s : State) : State :=
  match s.cfg.encMode with
  | .withCrc => { s with eacc := crcUpdate s.eacc b }
  | .withoutCrc => s

/-- The encoder's reset (R101): START at index 0, cursor 1, accumulator `CRC_INIT`. -/
def encFullReset (s : State) : State := { writeEbuf 0 [startByte] s with ecur := 1, eacc := crcInit }

/-! ### The decoder (`42_decoder.md`) -/

/-- `DecFullReset()` (R130): the bytes collected are not cleared, only no longer readable (D20). -/
def decFullReset (s : State) : State := { s with dstate := .waitingForStart, dcur := 0 }

/-- The start of a frame: `dcur <- 0`, `dstate <- Accepting` (R134, R138). -/
def decRestart (s : State) : State := { s with dstate := .accepting, dcur := 0 }

/-- A byte stored at the cursor if there is room, the decoder accepting after it (R137, R140); `none` if the buffer is
full. -/
def decStore (v : Byte) (s : State) : Option State :=
  if s.dcur < decCap s.cfg then some { writeDbuf s.dcur v s with dcur := s.dcur + 1, dstate := .accepting } else none

/-- The verdict on the collected bytes of a `With`-mode frame (R141, R175): the last four, big-endian, against the CRC of
those before them. -/
def trailerMatches (bytes : List Byte) : Bool :=
  beWord (bytes.drop (bytes.length - crcLen)) == crc (bytes.take (bytes.length - crcLen))

/-- `Validate()` (R141): `some len` for a frame whose payload has `len` bytes, `none` for one that fails. It reads
`DBUF[0..dcur)` and writes nothing. -/
def validate (s : State) : Except Fault (Option Nat) :=
  match s.cfg.decMode with
  | .withoutCrc => .ok (some s.dcur)
  | .withCrc =>
    if s.dcur < crcLen then .ok none
    else
      match readFirst s .dbuf s.dcur with
      | .error f => .error f
      | .ok bytes => .ok (if trailerMatches bytes then some (s.dcur - crcLen) else none)

/-! ### The hardware reset (`70_reset_and_hazards.md` R230) -/

/-- "The effects of `ENC.RESET` and `DEC.RESET` together"; no response word. "The rest of `EBUF` and all of `DBUF` are
unspecified": those bytes have no value afterwards, as after construction (DEDUCED, safe: log entry 5). -/
def hardwareReset (s : State) : State := decFullReset (encFullReset { s with ebuf := [], dbuf := [] })

end Sys2Proof.Machine
end

