-- ==== Sys2Proof/Machine/Decoder.lean ====
section
/-! DEFINITION. The decoder commands (`42_decoder.md` R131 to R144), one meaning each. `DEC.PUT` is the exhaustive transition
function of R132 over the state variant and the byte's class; each cell has its own definition (R133 to R140). -/

namespace Sys2Proof.Machine

/-- `DEC.RESET` (R131). -/
def execDecReset (s : State) : Result := respond (.of .ok 0) (decFullReset s)

/-- Cell (WaitingForStart, any byte) (R133): START begins a frame, every other byte is discarded. The cursor is not written:
it is "already 0 from the last reset" (`10_state.md` R28). -/
def cellWaiting (b : Byte) (s : State) : Result :=
  if b = startByte then respond (.consumed .ok 0) { s with dstate := .accepting }
  else respond (.consumed .ok 0) s

/-- Cell (Accepting, START) (R134): "restart". -/
def cellAcceptingStart (s : State) : Result := respond (.consumed .ok 0) (decRestart s)

/-- Cell (Accepting, END) (R135): a frame that validates changes nothing; one that fails resets the decoder. -/
def cellAcceptingEnd (s : State) : Result :=
  match validate s with
  | .error f => .fault f
  | .ok (some len) => respond (.consumed .frame len) s
  | .ok none => raise (.consumed .integrity 0) (decFullReset s)

/-- Cell (Accepting, ESC) (R136). No room check is made here. -/
def cellAcceptingEsc (s : State) : Result := respond (.consumed .ok s.dcur) { s with dstate := .escaped }

/-- A byte to store (R137, R140): stored, or a full buffer reported with nothing changed and the byte not consumed. -/
def storeOrExhausted (v : Byte) (s : State) : Result :=
  match decStore v s with
  | some t => respond (.consumed .ok t.dcur) t
  | none => raise (.of .exhausted s.dcur) s

/-- Cell (Accepting, OTHER) (R137): the byte itself is stored. -/
def cellAcceptingOther (b : Byte) (s : State) : Result := storeOrExhausted b s

/-- Cell (Escaped, START) (R138): "resynchronize". -/
def cellEscapedStart (s : State) : Result := respond (.consumed .ok 0) (decRestart s)

/-- Cells (Escaped, END) and (Escaped, ESC) (R139): corruption, the decoder resets. -/
def cellEscapedSentinel (s : State) : Result := raise (.consumed .corrupt 0) (decFullReset s)

/-- Cell (Escaped, OTHER) (R140): the byte's complement is stored. -/
def cellEscapedOther (b : Byte) (s : State) : Result := storeOrExhausted (~~~b) s

/-- `DEC.PUT b` (R132): the transition function. -/
def execDecPut (b : Byte) (s : State) : Result :=
  match s.dstate, classify b with
  | .waitingForStart, _ => cellWaiting b s
  | .accepting, .start => cellAcceptingStart s
  | .accepting, .fin => cellAcceptingEnd s
  | .accepting, .esc => cellAcceptingEsc s
  | .accepting, .other => cellAcceptingOther b s
  | .escaped, .start => cellEscapedStart s
  | .escaped, .fin => cellEscapedSentinel s
  | .escaped, .esc => cellEscapedSentinel s
  | .escaped, .other => cellEscapedOther b s

/-- `DEC.READ i` (R143). -/
def execDecRead (i : Nat) (s : State) : Result :=
  if inWindow i s.dcur then
    match memRead s .dbuf i with
    | .ok v => respond (.of .ok v.toNat) s
    | .error f => .fault f
  else raise (.of .badIndex 0) s

/-- `DEC.STAT` (R144). -/
def execDecStat (s : State) : Result :=
  respond { Response.of .ok s.dcur with dstate := s.dstate, mode := modeBit s.cfg.decMode } s

end Sys2Proof.Machine
end

