-- ==== Sys2Proof/Machine/Encoder.lean ====
section
/-! DEFINITION. The encoder commands (`41_encoder.md` R101 to R105), one meaning each. -/

namespace Sys2Proof.Machine

/-- `ENC.RESET` (R101). -/
def execEncReset (s : State) : Result := respond (.of .ok 1) (encFullReset s)

/-- `ENC.PUT b` (R102). -/
def execEncPut (b : Byte) (s : State) : Result :=
  match encAppend b s with
  | none => raise (.of .noRoom s.ecur) s
  | some t => respond (.of .ok t.ecur) (encAccumulate b t)

/-- `ENC.FIN` (R103). A trailer byte that does not fit leaves those before it written; END is written only where
`ecur + 1 <= ENC_CAP` (`90_conflicts.md` C11). -/
def execEncFin (s : State) : Result :=
  match encTrailer s with
  | (t, false) => raise (.of .noRoom t.ecur) t
  | (t, true) =>
    if t.ecur + 1 > encCap t.cfg then raise (.of .noRoom t.ecur) t
    else respond (.of .frame (t.ecur + 1)) { writeEbuf t.ecur [endByte] t with ecur := t.ecur + 1 }

/-- `ENC.READ i` (R104). -/
def execEncRead (i : Nat) (s : State) : Result :=
  if inWindow i s.ecur then
    match memRead s .ebuf i with
    | .ok v => respond (.of .ok v.toNat) s
    | .error f => .fault f
  else raise (.of .badIndex 0) s

/-- `ENC.STAT` (R105). -/
def execEncStat (s : State) : Result :=
  respond { Response.of .ok s.ecur with mode := modeBit s.cfg.encMode } s

end Sys2Proof.Machine
end

