-- ==== Sys2Proof/Machine/Dispatch.lean ====
section
/-! DEFINITION. One arm per command (`30_encoding.md` R72). -/

namespace Sys2Proof.Machine

def exec (i : Instr) (s : State) : Host.Outcome State Fault Refusal :=
  match i with
  | .encReset => Sys2Proof.Machine.execEncReset s
  | .encPut b => Sys2Proof.Machine.execEncPut b s
  | .encFin => Sys2Proof.Machine.execEncFin s
  | .encRead idx => Sys2Proof.Machine.execEncRead idx s
  | .encStat => Sys2Proof.Machine.execEncStat s
  | .decReset => Sys2Proof.Machine.execDecReset s
  | .decPut b => Sys2Proof.Machine.execDecPut b s
  | .decRead idx => Sys2Proof.Machine.execDecRead idx s
  | .decStat => Sys2Proof.Machine.execDecStat s

end Sys2Proof.Machine
end

