-- ==== Sys2Proof/Machine/Transact.lean ====
section
/-! DEFINITION. What one host input does to the block (`30_encoding.md` R79, `70_reset_and_hazards.md` R230, R231): what
`Step.lean` calls. -/

namespace Sys2Proof.Machine

/-- One command word: `ILLEGAL` is checked first, from the word alone (`60_exceptions.md` R208); else the command's own
rule. -/
def transact (w : Word) (s : State) : Result :=
  match decode w with
  | .ok i => exec i s
  | .error _ => illegalCommand s

/-- Command words served one after another (`20_memory.md` R51: "the left fold of the command rules over the n commands, in
issue order"). -/
def transactAll : List Word → State → Result
  | [], s => .next s
  | w :: ws, s =>
    match transact w s with
    | .next t => transactAll ws t
    | .fault f => .fault f
    | .refused r => .refused r

/-- A command caught by the reset (R231): not answered, its effect complete or absent, and then the reset. -/
def caughtByReset (w : Word) (completed : Bool) (s : State) : Result :=
  if completed then
    match transact w s with
    | .next t => .next (hardwareReset { t with responses := s.responses })
    | .fault f => .fault f
    | .refused r => .refused r
  else .next (hardwareReset s)

/-- What one host input does. -/
def accept (inp : HostInput) (s : State) : Result :=
  match inp with
  | .command w => transact w s
  | .reset => .next (hardwareReset s)
  | .resetDuring w completed => caughtByReset w completed s

/-- The host presents one more command word, ahead of everything else it will do. -/
def presentWord (w : Word) (s : State) : State := { s with inputs := .command w :: s.inputs }

end Sys2Proof.Machine
end

