-- ==== Sys2Proof/Machine/Step.lean ====
section
/-! DEFINITION. One step of the block: the next thing the host does, applied atomically (`00_scope.md` R16, `20_memory.md`
R48, R51). -/

namespace Sys2Proof.Machine

/-- One step. With nothing from the host the block waits, and waiting changes nothing (`20_memory.md` R49 "after reset it
waits for a command"; DESIGN CHOICE, safe: log entry 6). -/
def step (s : State) : Host.Outcome State Fault Refusal :=
  match s.inputs with
  | [] => .next s
  | inp :: rest => accept inp { s with inputs := rest }

/-- The state in which the host's next action is to present the word whose bits are `w`, numbered as
`spec/opcode_table.json` numbers them. The block fetches nothing (R22, R54): this stands for the host's presenting the
command (log entry 6). -/
def State.withFetchWord (s : State) (nbits w : Nat) : State := presentWord (tableWord nbits w) s

end Sys2Proof.Machine
end

