-- ==== Sys2Proof/Machine/Assembler.lean ====
section
/-! DEFINITION. The assembler syntax of the spec's listings (`30_encoding.md` R77): a command from a line of text, and a
line of text for a command. A line is a list of characters. The pseudo-instructions of R78 are no lines of this
assembler: they stand in `Machine/Pseudo.lean`. What R77 leaves open of a line's text is DESIGN CHOICE, safe: log entry 9. -/

namespace Sys2Proof.Machine

/-- A command's mnemonic, "in capitals" (R77). -/
def mnemonicChars : Instr → List Char
  | .encReset => ['E', 'N', 'C', '.', 'R', 'E', 'S', 'E', 'T']
  | .encPut _ => ['E', 'N', 'C', '.', 'P', 'U', 'T']
  | .encFin => ['E', 'N', 'C', '.', 'F', 'I', 'N']
  | .encRead _ => ['E', 'N', 'C', '.', 'R', 'E', 'A', 'D']
  | .encStat => ['E', 'N', 'C', '.', 'S', 'T', 'A', 'T']
  | .decReset => ['D', 'E', 'C', '.', 'R', 'E', 'S', 'E', 'T']
  | .decPut _ => ['D', 'E', 'C', '.', 'P', 'U', 'T']
  | .decRead _ => ['D', 'E', 'C', '.', 'R', 'E', 'A', 'D']
  | .decStat => ['D', 'E', 'C', '.', 'S', 'T', 'A', 'T']

/-- The value of a digit character; a letter may have either case. -/
def digitValue (c : Char) : Option Nat :=
  if 48 ≤ c.toNat ∧ c.toNat ≤ 57 then some (c.toNat - 48)
  else if 65 ≤ c.toNat ∧ c.toNat ≤ 70 then some (c.toNat - 55)
  else if 97 ≤ c.toNat ∧ c.toNat ≤ 102 then some (c.toNat - 87)
  else none

/-- Digits read on from the value `acc`, most significant first; `none` at a character that is no digit of the base. -/
def digitsFrom (base : Nat) : Nat → List Char → Option Nat
  | acc, [] => some acc
  | acc, c :: cs =>
    match digitValue c with
    | none => none
    | some d => if d < base then digitsFrom base (acc * base + d) cs else none

/-- A hexadecimal number with its `0x` (`00_scope.md` R8). -/
def hexNumber : List Char → Option Nat
  | '0' :: 'x' :: c :: cs => digitsFrom 16 0 (c :: cs)
  | _ => none

/-- A decimal number. -/
def decNumber : List Char → Option Nat
  | [] => none
  | c :: cs => digitsFrom 10 0 (c :: cs)

/-- A B-form operand: "a byte in hexadecimal" (R77). -/
def byteOperand (cs : List Char) : Option Byte :=
  match hexNumber cs with
  | some n => if n < 2 ^ 8 then some (BitVec.ofNat 8 n) else none
  | none => none

/-- An I-form operand: "a decimal or hexadecimal index" (R77) that the 24 bits of `ARG` can carry (R71). -/
def indexOperand (cs : List Char) : Option Nat :=
  match hexNumber cs with
  | some n => if n < 2 ^ 24 then some n else none
  | none =>
    match decNumber cs with
    | some n => if n < 2 ^ 24 then some n else none
    | none => none

/-- The words of a line, without its comment ("`;` starts a comment", R77). -/
def lineWords (line : List Char) : List (List Char) :=
  ((line.takeWhile (· ≠ ';')).splitOn ' ').filter (fun t => !t.isEmpty)

/-- The N-form commands (R72). -/
def plainCommands : List Instr := [.encReset, .encFin, .encStat, .decReset, .decStat]

/-- The command a line stands for; `none` where the line is not one of R77's forms. -/
def assemble (line : List Char) : Option Instr :=
  match lineWords line with
  | [m] => plainCommands.find? (fun i => mnemonicChars i == m)
  | [m, x] =>
    if m = mnemonicChars (.encPut 0#8) then (byteOperand x).map .encPut
    else if m = mnemonicChars (.decPut 0#8) then (byteOperand x).map .decPut
    else if m = mnemonicChars (.encRead 0) then (indexOperand x).map .encRead
    else if m = mnemonicChars (.decRead 0) then (indexOperand x).map .decRead
    else none
  | _ => none

/-- A digit's character, letters in capitals. -/
def digitChar (d : Nat) : Char := if d < 10 then Char.ofNat (48 + d) else Char.ofNat (55 + d)

/-- The last `k` hexadecimal digits of a number. -/
def hexDigits : Nat → Nat → List Char
  | 0, _ => []
  | k + 1, n => hexDigits k (n / 16) ++ [digitChar (n % 16)]

/-- A command as a line: its mnemonic, then its operand "separated by a space" (R77), written in hexadecimal. -/
def listing (i : Instr) : List Char :=
  match i with
  | .encPut b => mnemonicChars i ++ [' ', '0', 'x'] ++ hexDigits 2 b.toNat
  | .decPut b => mnemonicChars i ++ [' ', '0', 'x'] ++ hexDigits 2 b.toNat
  | .encRead n => mnemonicChars i ++ [' ', '0', 'x'] ++ hexDigits 6 n
  | .decRead n => mnemonicChars i ++ [' ', '0', 'x'] ++ hexDigits 6 n
  | .encReset => mnemonicChars i
  | .encFin => mnemonicChars i
  | .encStat => mnemonicChars i
  | .decReset => mnemonicChars i
  | .decStat => mnemonicChars i

end Sys2Proof.Machine
end

