-- ==== Sys2Proof/Machine/Pseudo.lean ====
section
/-! DEFINITION. The pseudo-instructions (`30_encoding.md` R78): host-side sequences of commands. ENC.PUTN and DEC.PUTN
have the result the source's multi-byte call returns (`41_encoder.md` R106, `42_decoder.md` R145); the spec gives ENC.FRAME no
result, and the one here is the model's choice (log entry 14). They are no encodings and the block knows
nothing of them: each is written over `exec`, and reads a command's outcome from its response word, as a host does. -/

namespace Sys2Proof.Machine

/-- The response to the last command answered, as the host reads it. -/
def lastResponse (s : State) : Option Response :=
  match s.responses.getLast? with
  | none => none
  | some w => Response.ofWord w

/-- The status of the last response. -/
def lastStatus (s : State) : Option Status := (lastResponse s).map Response.status

/-- `ENC.PUTN b0, ..., b(k-1)` (R106): stops after the first `NOROOM`; the result is the count of bytes appended. -/
def encPutN : List Byte → State → Host.Outcome (State × Nat) Fault Refusal
  | [], s => .next (s, 0)
  | b :: bs, s =>
    match exec (.encPut b) s with
    | .fault f => .fault f
    | .refused r => .refused r
    | .next t =>
      if lastStatus t = some .noRoom then .next (t, 0)
      else
        match encPutN bs t with
        | .fault f => .fault f
        | .refused r => .refused r
        | .next (u, count) => .next (u, count + 1)

/-- `DEC.PUTN b0, ..., b(k-1)` (R145): stops after the first response that is not `OK`; the result is that response (`none`
where every byte was answered `OK`) and the count of bytes consumed, the failing byte's index plus its `CONS`. -/
def decPutN : List Byte → State → Host.Outcome (State × Option Response × Nat) Fault Refusal
  | [], s => .next (s, none, 0)
  | b :: bs, s =>
    match exec (.decPut b) s with
    | .fault f => .fault f
    | .refused r => .refused r
    | .next t =>
      match lastResponse t with
      | none => .next (t, none, 0)
      | some r =>
        if r.status = .ok then
          match decPutN bs t with
          | .fault f => .fault f
          | .refused r => .refused r
          | .next (u, stop, consumed) => .next (u, stop, consumed + 1)
        else .next (t, some r, if r.cons then 1 else 0)

/-- `ENC.FRAME p0, ..., p(n-1)` (R78): `ENC.RESET`, `ENC.PUTN`, `ENC.FIN`. R78 gives it no result: that it returns the
count its `ENC.PUTN` gave (R106) is a DESIGN CHOICE (log entry 14). -/
def encFrame (payload : List Byte) (s : State) : Host.Outcome (State × Nat) Fault Refusal :=
  match exec .encReset s with
  | .fault f => .fault f
  | .refused r => .refused r
  | .next t =>
    match encPutN payload t with
    | .fault f => .fault f
    | .refused r => .refused r
    | .next (u, count) =>
      match exec .encFin u with
      | .fault f => .fault f
      | .refused r => .refused r
      | .next v => .next (v, count)

/-- Commands issued one after another (`20_memory.md` R51: "the left fold of the command rules over the n commands, in
issue order"). -/
def execAll : List Instr → State → Result
  | [], s => .next s
  | i :: is, s =>
    match exec i s with
    | .next t => execAll is t
    | .fault f => .fault f
    | .refused r => .refused r

end Sys2Proof.Machine
end

