-- ==== Sys2Proof/Machine/Wire.lean ====
section
/-! DEFINITION. The wire format (`30_encoding.md` R60 to R66): the frame a payload stands for. The commands do not use these
functions: statements hold the commands against them (`41_encoder.md` R108, `42_decoder.md` R148). -/

namespace Sys2Proof.Machine

/-- The unescaped trailer of a payload: its CRC, big-endian, in `With` mode; nothing in `Without` mode (R64, R65). -/
def trailer (payload : List Byte) : Mode → List Byte
  | .withCrc => beBytes (crc payload)
  | .withoutCrc => []

/-- What stands between START and END: the payload and the trailer, each byte in its wire form (R64). -/
def frameBody (payload : List Byte) (m : Mode) : List Byte := (payload ++ trailer payload m).flatMap wireForm

/-- `Frame(P, m)` (R64). -/
def frame (payload : List Byte) (m : Mode) : List Byte := startByte :: (frameBody payload m ++ [endByte])

/-- The longest payload the encoder is guaranteed to finish (`41_encoder.md` R108, `70_reset_and_hazards.md` R240): `MAXP`
bytes in `With` mode, `MAXP + 4` in `Without` mode. -/
def maxPayload (c : Config) : Mode → Nat
  | .withCrc => c.maxp
  | .withoutCrc => c.maxp + crcLen

end Sys2Proof.Machine
end

