-- ==== Sys2Proof/Safety.lean ====
section
/-! DEFINITION. The invariant of the block and what a safe step is: the terms the statements use. -/

namespace Sys2Proof.Machine

/-- Every written byte of a buffer lies inside its capacity (`20_memory.md` R40). -/
abbrev Memory.inside (m : Memory) (cap : Nat) : Prop := ∀ c ∈ m, c.1 < cap

/-- Every byte below a cursor has been written (`10_state.md` R23, R27: a cursor is the count of the bytes written). -/
abbrev Memory.filled (m : Memory) (cursor : Nat) : Prop := ∀ i < cursor, (m.read i).isSome

/-- What the spec says always holds of the block's state. -/
structure State.Inv (s : State) : Prop where
  /-- The build is one of this spec (`00_scope.md` R6). -/
  build : s.cfg.wf
  ebufCanonical : s.ebuf.wf
  /-- `EBUF` has the indices `0 .. ENC_CAP-1` (`20_memory.md` R40). -/
  ebufInside : s.ebuf.inside (encCap s.cfg)
  /-- `1 <= ecur` (`10_state.md` R23, R27). -/
  ecurPos : 1 ≤ s.ecur
  /-- `ecur <= ENC_CAP` (R27). -/
  ecurBound : s.ecur ≤ encCap s.cfg
  /-- `EBUF[0]` holds START "from every encoder reset onward" (R25). -/
  ebufStart : s.ebuf.read 0 = some startByte
  ebufFilled : s.ebuf.filled s.ecur
  /-- "When `ENC_MODE = Without` it keeps the value `CRC_INIT` from reset onward" (R24). -/
  eaccIdle : s.cfg.encMode = .withoutCrc → s.eacc = crcInit
  dbufCanonical : s.dbuf.wf
  /-- `DBUF` has the indices `0 .. DEC_CAP-1` (`20_memory.md` R40). -/
  dbufInside : s.dbuf.inside (decCap s.cfg)
  /-- `dcur <= DEC_CAP` (R27). -/
  dcurBound : s.dcur ≤ decCap s.cfg
  dbufFilled : s.dbuf.filled s.dcur
  /-- "When `dstate = WaitingForStart`, `dcur = 0`" (R28). -/
  waitingEmpty : s.dstate = .waitingForStart → s.dcur = 0

/-- A step that goes on. -/
def Safe (s : State) : Prop := ∃ t, step s = .next t

/-- The encoder's part of the state (`00_scope.md` R2: ENC and DEC have "no shared mutable state"). -/
def State.encPart (s : State) : Memory × Nat × Word := (s.ebuf, s.ecur, s.eacc)

/-- The decoder's part of the state. -/
def State.decPart (s : State) : Memory × Nat × DState := (s.dbuf, s.dcur, s.dstate)

/-- Is this an ENC command (opcodes 0x1x, `92_eei_decisions.md` D3)? -/
def isEncCommand : Instr → Bool
  | .encReset => true
  | .encPut _ => true
  | .encFin => true
  | .encRead _ => true
  | .encStat => true
  | .decReset => false
  | .decPut _ => false
  | .decRead _ => false
  | .decStat => false

/-- The commands with a `W` in an encoder column of `10_state.md` R33's table. -/
def writesEncoder : Instr → Bool
  | .encReset => true
  | .encPut _ => true
  | .encFin => true
  | .encRead _ => false
  | .encStat => false
  | .decReset => false
  | .decPut _ => false
  | .decRead _ => false
  | .decStat => false

/-- The commands with a `W` in a decoder column of R33's table. -/
def writesDecoder : Instr → Bool
  | .encReset => false
  | .encPut _ => false
  | .encFin => false
  | .encRead _ => false
  | .encStat => false
  | .decReset => true
  | .decPut _ => true
  | .decRead _ => false
  | .decStat => false

/-- The statuses a command can answer with (`60_exceptions.md` R201 and each command's own rule; for `ENC.FIN` DEDUCED,
unsafe: log entry 11). -/
def mayAnswer : Instr → List Status
  | .encReset => [.ok]
  | .encPut _ => [.ok, .noRoom]
  | .encFin => [.frame, .noRoom]
  | .encRead _ => [.ok, .badIndex]
  | .encStat => [.ok]
  | .decReset => [.ok]
  | .decPut _ => [.ok, .frame, .exhausted, .corrupt, .integrity]
  | .decRead _ => [.ok, .badIndex]
  | .decStat => [.ok]

/-- A response word written out from `30_encoding.md` R74: the fields' numbers at bits 31:28, 27, 26:25, 24 and 23:0. -/
def replyWord (status cons dstate mode value : Nat) : Word :=
  BitVec.ofNat 32 (status * 2 ^ 28 + cons * 2 ^ 27 + dstate * 2 ^ 25 + mode * 2 ^ 24 + value)

/-- A response word whose `STATUS` is 0 (`OK`) and whose `CONS` is this bit (R74). -/
def isOkWord (cons : Bool) (w : Word) : Bool := w.extractLsb' 28 4 == 0#4 && w.getLsbD 27 == cons

/-- A buffer's first bytes are these: `S[0..|bytes|) = bytes` (`00_scope.md` R9). -/
def Memory.holds (m : Memory) (bytes : List Byte) : Prop := ∀ i < bytes.length, m.read i = bytes[i]?

/-- Two states a host cannot tell apart (`10_state.md` R31, R34, `20_memory.md` R41): they agree on everything but the
buffer bytes at or above a cursor, which no command reads. -/
structure SameToHost (s t : State) : Prop where
  cfg : s.cfg = t.cfg
  ecur : s.ecur = t.ecur
  eacc : s.eacc = t.eacc
  dcur : s.dcur = t.dcur
  dstate : s.dstate = t.dstate
  inputs : s.inputs = t.inputs
  responses : s.responses = t.responses
  ebuf : ∀ i < s.ecur, s.ebuf.read i = t.ebuf.read i
  dbuf : ∀ i < s.dcur, s.dbuf.read i = t.dbuf.read i

end Sys2Proof.Machine
end

