-- ==== Sys2Proof/Certificates/Slice0/Obligations.lean ====
section
/-! DEFINITION. The statements for the provers: the numbered rules of `spec/` and what follows from them. Response words are
written out with `replyWord` (status, CONS, DSTATE, MODE, VALUE), from `30_encoding.md` R74. -/

open Sys2Proof Sys2Proof.Machine

/-! ### Encodings -/

/-- Decoding the word of a well-formed command gives the command back, every operand at every value (R70 to R72). -/
def Obligations.DecodeOfEncode : Prop := ∀ i : Instr, i.wf = true → decode (encode i) = .ok i

/-- A word that decodes is the word of the command it decodes to, and that command is well-formed: each legal command has
one word (R70 to R72). -/
def Obligations.EncodeOfDecode : Prop := ∀ (w : Word) (i : Instr), decode w = .ok i → encode i = w ∧ i.wf = true

/-- R73: the reserved encodings are exactly these, and executing one changes no state and answers `ILLEGAL` with value 0. -/
def Obligations.ReservedWordsAnswerIllegal : Prop :=
  ∀ w : Word,
    let op := w.toNat / 2 ^ 24
    let arg := w.toNat % 2 ^ 24
    let reserved : Prop := (op ≤ 0x0F ∨ (0x15 ≤ op ∧ op ≤ 0x1F) ∨ 0x24 ≤ op) ∨
      ((op = 0x10 ∨ op = 0x12 ∨ op = 0x14 ∨ op = 0x20 ∨ op = 0x23) ∧ arg ≠ 0) ∨
      ((op = 0x11 ∨ op = 0x21) ∧ arg / 2 ^ 8 ≠ 0)
    (reserved ↔ ∀ i, decode w ≠ .ok i) ∧
    (reserved → ∀ (s : State) (rest : List HostInput), s.inputs = .command w :: rest →
      step s = .next { s with inputs := rest, responses := s.responses ++ [0xF0000000#32] })

/-- A legal word falls under exactly one row of `spec/opcode_table.json`, its command's, and an illegal word under none
(R72, R73). -/
def Obligations.OneRowPerLegalWord : Prop :=
  ∀ w : Word,
    (∀ i, decode w = .ok i → opcodeTable.filter (fun r => r.covers w) = [opcodeRow i]) ∧
    ((∀ i, decode w ≠ .ok i) → opcodeTable.filter (fun r => r.covers w) = [])

/-- Words written out by the spec (R77 and `95_test_vectors.md`) decode to the commands it gives for them. -/
def Obligations.SpecWordsDecode : Prop :=
  decode 0x10000000#32 = .ok .encReset ∧ decode 0x1100002A#32 = .ok (.encPut 0x2A#8) ∧
  decode 0x12000000#32 = .ok .encFin ∧ decode 0x13FFFFFF#32 = .ok (.encRead 16777215) ∧
  decode 0x14000000#32 = .ok .encStat ∧ decode 0x20000000#32 = .ok .decReset ∧
  decode 0x210000E4#32 = .ok (.decPut 0xE4#8) ∧ decode 0x22000003#32 = .ok (.decRead 3) ∧
  decode 0x23000000#32 = .ok .decStat

/-- The response word is R74's layout of R75's and R26's codes, a host reads back what was laid out, and it refuses exactly
the reserved status codes 0x6 to 0xD and `DSTATE` 3. -/
def Obligations.ResponseWordLayout : Prop :=
  (∀ r : Response,
    r.toWord = replyWord
      (match r.status with
        | .ok => 0x0 | .frame => 0x1 | .noRoom => 0x2 | .exhausted => 0x3 | .corrupt => 0x4 | .integrity => 0x5
        | .badIndex => 0xE | .illegal => 0xF)
      (if r.cons then 1 else 0)
      (match r.dstate with | .waitingForStart => 0 | .accepting => 1 | .escaped => 2)
      (if r.mode then 1 else 0) r.value.toNat ∧
    Response.ofWord r.toWord = some r) ∧
  (∀ (w : Word) (r : Response), Response.ofWord w = some r → r.toWord = w) ∧
  (∀ w : Word, Response.ofWord w = none ↔
    (0x6 ≤ w.toNat / 2 ^ 28 ∧ w.toNat / 2 ^ 28 ≤ 0xD) ∨ w.toNat / 2 ^ 25 % 4 = 3)

/-- R77: the assembler reads a command back from its listing, whatever the operand. -/
def Obligations.AssemblerReadsListings : Prop := ∀ i : Instr, i.wf = true → assemble (listing i) = some i

/-! ### Builds, reset and the step -/

/-- R5, R6: the capacities of a build, and that a build is one of the spec exactly where `ENC_CAP <= 2^24 - 1`. -/
def Obligations.CapacitiesOfABuild : Prop :=
  ∀ c : Config, encCap c = 2 * c.maxp + 10 ∧ decCap c = c.maxp + 4 ∧ (c.wf = true ↔ encCap c ≤ 2 ^ 24 - 1) ∧
    (c.wf = true ↔ c.maxp ≤ 8388602)

/-- R34: the state after the hardware reset, of every build. -/
def Obligations.ResetValues : Prop :=
  ∀ c : Config, (State.resetOf c).ebuf.read 0 = some 0x02#8 ∧ (State.resetOf c).ecur = 1 ∧
    (State.resetOf c).eacc = 0x00000000#32 ∧ (State.resetOf c).dcur = 0 ∧
    (State.resetOf c).dstate = .waitingForStart ∧ (State.resetOf c).cfg = c

/-- The state after reset, of every build of the spec, meets the invariant; so does the machine's own reset state (whose
build is the model's choice: log entry 2). -/
def Obligations.ResetMeetsInvariant : Prop := (∀ c : Config, c.wf = true → (State.resetOf c).Inv) ∧ State.reset.Inv

/-- From every state that meets the invariant, whatever the host does next, the block goes on to a state that meets it: no
step ends in a fault or a refusal (R20 to R28, R200). -/
def Obligations.StepKeepsInvariant : Prop := ∀ s : State, s.Inv → ∃ t, step s = .next t ∧ t.Inv

/-- A step whose input is the word of a command is that command's rule, run on the state with the input taken; a word laid
by `withFetchWord` is the next one taken. -/
def Obligations.StepRunsDecodedCommand : Prop :=
  (∀ (s : State) (w : Word) (rest : List HostInput) (i : Instr),
    s.inputs = .command w :: rest → decode w = .ok i → step s = exec i { s with inputs := rest }) ∧
  (∀ (s : State) (i : Instr), i.wf = true → step (s.withFetchWord 32 (encode i).toNat) = exec i s)

/-- The model's choice (log entry 6, from `20_memory.md` R49 "after reset it waits for a command"): with nothing from the
host, a step changes nothing. -/
def Obligations.BlockWaitsForTheHost : Prop := ∀ s : State, s.inputs = [] → step s = .next s

/-- R230: what the reset input does, between commands: the effects of ENC.RESET and DEC.RESET together, without their
response words; the parameters are kept. -/
def Obligations.HardwareResetState : Prop :=
  ∀ (s : State) (rest : List HostInput), s.inputs = .reset :: rest →
    ∃ t, step s = .next t ∧ t.ebuf.read 0 = some 0x02#8 ∧ t.ecur = 1 ∧ t.eacc = 0x00000000#32 ∧
      t.dstate = .waitingForStart ∧ t.dcur = 0 ∧ t.cfg = s.cfg ∧ t.inputs = rest ∧ t.responses = s.responses ∧
      ∃ u, execAll [.encReset, .decReset] { s with inputs := rest } = .next u ∧
        SameToHost { u with responses := s.responses } t

/-- From R231 ("not answered", "complete or absent; a model admits both") and `93_implementation_defined.md` I10 ("the state
after reset is the same in both"): the reset is applied to the state `t` the command left, or to the state before it; both
are admitted, they give one state, and no response is delivered. Two parts are the model's choice. That the host's input
`resetDuring` carries the outcome is log entry 8 (DESIGN CHOICE). That the two states are equal as data, hidden buffer bytes
included, rests on log entry 5 (DEDUCED): after the hardware reset those bytes have no value. -/
def Obligations.CaughtCommandIsUnanswered : Prop :=
  ∀ (s : State) (w : Word) (rest : List HostInput), s.Inv →
    ∃ t after,
      transact w { s with inputs := rest } = .next t ∧
      step { t with inputs := .reset :: rest, responses := s.responses } = .next after ∧
      step { s with inputs := .reset :: rest } = .next after ∧
      (∀ completed, step { s with inputs := .resetDuring w completed :: rest } = .next after) ∧
      after.responses = s.responses

/-- R51: serving queued command words, legal or not, is the left fold of the command rules over them, in issue order, and
response k answers command k. -/
def Obligations.RunIsFoldOfCommands : Prop :=
  (∀ (ws : List Word) (s : State) (rest : List HostInput),
    core.run ws.length { s with inputs := ws.map .command ++ rest } = transactAll ws { s with inputs := rest }) ∧
  (∀ (ws : List Word) (s t : State), transactAll ws s = .next t →
    ∃ answers, answers.length = ws.length ∧ t.responses = s.responses ++ answers)

/-! ### Which state a command writes -/

/-- R33: each command writes only the state its row marks W, and answers with exactly one response word (R79). -/
def Obligations.CommandsWriteOnlyTheirState : Prop :=
  ∀ (i : Instr) (s t : State), exec i s = .next t →
    t.cfg = s.cfg ∧ t.inputs = s.inputs ∧ (∃ w, t.responses = s.responses ++ [w]) ∧
    (writesEncoder i = false → t.encPart = s.encPart) ∧
    (writesDecoder i = false → t.decPart = s.decPart) ∧
    (i = .encFin → t.eacc = s.eacc) ∧
    ((∃ b, i = .encPut b) → s.cfg.encMode = .withoutCrc → t.eacc = s.eacc) ∧
    (i = .encReset → ∀ a, a ≠ 0 → t.ebuf.read a = s.ebuf.read a) ∧
    (i = .decReset → t.dbuf = s.dbuf)

/-- R42: a buffer byte changes only where a command stores one: ENC.PUT and ENC.FIN at the encoder's cursor and on, DEC.PUT
at the decoder's cursor, and only where they store. -/
def Obligations.BuffersChangeOnlyAtTheCursor : Prop :=
  (∀ (b : Byte) (s t : State), exec (.encPut b) s = .next t →
    (∀ a, ¬(s.ecur ≤ a ∧ a < s.ecur + (wireForm b).length) → t.ebuf.read a = s.ebuf.read a) ∧
    (encCap s.cfg - 1 < s.ecur + (wireForm b).length → ∀ a, t.ebuf.read a = s.ebuf.read a)) ∧
  (∀ s t : State, exec .encFin s = .next t →
    ∀ a, ¬(s.ecur ≤ a ∧ a < t.ecur) → t.ebuf.read a = s.ebuf.read a) ∧
  (∀ (b : Byte) (s t : State), exec (.decPut b) s = .next t →
    (∀ a, a ≠ s.dcur → t.dbuf.read a = s.dbuf.read a) ∧
    (s.dstate = .waitingForStart ∨ classify b ≠ .other ∨ decCap s.cfg ≤ s.dcur →
      ∀ a, t.dbuf.read a = s.dbuf.read a))

/-- R52: an ENC command and a DEC command commute: in either order they leave the same state and give the same two
responses, each its own. -/
def Obligations.EncAndDecCommandsCommute : Prop :=
  ∀ (e d : Instr) (s : State), isEncCommand e = true → isEncCommand d = false → s.Inv →
    ∃ (t : State) (re rd : Word),
      execAll [e, d] s = .next { t with responses := s.responses ++ [re, rd] } ∧
      execAll [d, e] s = .next { t with responses := s.responses ++ [rd, re] }

/-- Every response is one a command's rule allows: its status is among those the command can answer with, and CONS, DSTATE
and MODE are 0 except where R74 defines them. -/
def Obligations.ResponsesAreTheCommandsOwn : Prop :=
  ∀ (i : Instr) (s t : State), exec i s = .next t →
    ∃ r : Response, t.responses = s.responses ++ [r.toWord] ∧ r.status ∈ mayAnswer i ∧
      (r.cons = true → ∃ b, i = .decPut b) ∧ (r.dstate ≠ .waitingForStart → i = .decStat) ∧
      (r.mode = true → i = .encStat ∨ i = .decStat)

/-- R31, R34, R41: a host never observes a buffer byte at or above its cursor: two states that agree on everything else
give the same responses and stay so, whatever the host does. -/
def Obligations.HiddenBytesAreNeverObserved : Prop :=
  ∀ s t : State, SameToHost s t → s.Inv → t.Inv →
    ∃ s' t', step s = .next s' ∧ step t = .next t' ∧ SameToHost s' t'

/-! ### The encoder's commands -/

/-- R101. -/
def Obligations.EncResetResult : Prop :=
  ∀ s : State, exec .encReset s = .next { s with
    ebuf := s.ebuf.write 0 0x02#8, ecur := 1, eacc := 0x00000000#32, responses := s.responses ++ [0x00000001#32] }

/-- R100, R102: the byte's wire form appended at the cursor and the accumulator updated over the unescaped byte in `With`
mode; or, where it does not fit before the slot kept for END, `NOROOM` and nothing changed. -/
def Obligations.EncPutResult : Prop :=
  ∀ (s : State) (b : Byte), s.cfg.wf = true → s.ecur ≤ encCap s.cfg →
    let need := if b = 0x02#8 ∨ b = 0x03#8 ∨ b = 0x1B#8 then 2 else 1
    exec (.encPut b) s = .next
      (if s.ecur + need > encCap s.cfg - 1 then
        { s with responses := s.responses ++ [replyWord 0x2 0 0 0 s.ecur] }
      else { s with
        ebuf := if need = 2 then (s.ebuf.write s.ecur 0x1B#8).write (s.ecur + 1) (~~~b) else s.ebuf.write s.ecur b
        ecur := s.ecur + need
        eacc := if s.cfg.encMode = .withCrc then crcUpdate s.eacc b else s.eacc
        responses := s.responses ++ [replyWord 0x0 0 0 0 (s.ecur + need)] })

/-- R103. In `Without` mode: END at the cursor, `FRAME` with the frame's length, or `NOROOM` and nothing changed where an
earlier ENC.FIN has filled the buffer. In `With` mode, where the trailer fits: the accumulator's four bytes, most
significant first, each in its wire form, then END, and `FRAME`; the accumulator unchanged. Where trailer byte number `k` is
the first that does not fit: those before it stay written, the cursor counts them, END is not written, and the answer is
`NOROOM`. -/
def Obligations.EncFinResult : Prop :=
  ∀ s : State, s.cfg.wf = true → s.ecur ≤ encCap s.cfg →
    let c := s.eacc
    let bytes := [c.extractLsb' 24 8, c.extractLsb' 16 8, c.extractLsb' 8 8, c.extractLsb' 0 8]
    (s.cfg.encMode = .withoutCrc → exec .encFin s = .next
      (if s.ecur + 1 > encCap s.cfg then { s with responses := s.responses ++ [replyWord 0x2 0 0 0 s.ecur] }
      else { s with
        ebuf := s.ebuf.write s.ecur 0x03#8, ecur := s.ecur + 1
        responses := s.responses ++ [replyWord 0x1 0 0 0 (s.ecur + 1)] })) ∧
    (s.cfg.encMode = .withCrc →
      let wire := bytes.flatMap wireForm
      s.ecur + wire.length ≤ encCap s.cfg - 1 → exec .encFin s = .next { s with
        ebuf := s.ebuf.writeSeq s.ecur (wire ++ [0x03#8]), ecur := s.ecur + wire.length + 1
        responses := s.responses ++ [replyWord 0x1 0 0 0 (s.ecur + wire.length + 1)] }) ∧
    (s.cfg.encMode = .withCrc → ∀ k < 4,
      let before := (bytes.take k).flatMap wireForm
      (k = 0 ∨ s.ecur + before.length ≤ encCap s.cfg - 1) →
      s.ecur + ((bytes.take (k + 1)).flatMap wireForm).length > encCap s.cfg - 1 → exec .encFin s = .next { s with
        ebuf := s.ebuf.writeSeq s.ecur before, ecur := s.ecur + before.length
        responses := s.responses ++ [replyWord 0x2 0 0 0 (s.ecur + before.length)] })

/-- R104: the byte below the cursor, or `BADINDEX`; index 0 always reads START. Nothing else changes. -/
def Obligations.EncReadResult : Prop :=
  ∀ (s : State) (i : Nat), s.Inv →
    (i < s.ecur → ∃ v : Byte, s.ebuf.read i = some v ∧
      exec (.encRead i) s = .next { s with responses := s.responses ++ [replyWord 0x0 0 0 0 v.toNat] }) ∧
    (s.ecur ≤ i → exec (.encRead i) s = .next { s with responses := s.responses ++ [0xE0000000#32] }) ∧
    exec (.encRead 0) s = .next { s with responses := s.responses ++ [0x00000002#32] }

/-- R105. -/
def Obligations.EncStatResult : Prop :=
  ∀ s : State, s.cfg.wf = true → s.ecur ≤ encCap s.cfg →
    exec .encStat s = .next { s with
      responses := s.responses ++ [replyWord 0x0 0 0 (if s.cfg.encMode = .withCrc then 1 else 0) s.ecur] }

/-- R106: the count ENC.PUTN returns is the number of leading bytes appended, the encoder is as the last successful put
left it, and a short count means the next byte did not fit. -/
def Obligations.EncPutNCountsAppendedBytes : Prop :=
  ∀ (bytes : List Byte) (s : State), s.cfg.wf = true → s.ecur ≤ encCap s.cfg →
    ∃ (t : State) (count : Nat), encPutN bytes s = .next (t, count) ∧ count ≤ bytes.length ∧
      t.ebuf = s.ebuf.writeSeq s.ecur ((bytes.take count).flatMap wireForm) ∧
      t.ecur = s.ecur + ((bytes.take count).flatMap wireForm).length ∧
      t.eacc = (if s.cfg.encMode = .withCrc then (bytes.take count).foldl crcUpdate s.eacc else s.eacc) ∧
      (∀ b rest, bytes.drop count = b :: rest →
        encCap s.cfg - 1 < t.ecur + (wireForm b).length ∧
        t.responses.getLast? = some (replyWord 0x2 0 0 0 t.ecur))

/-! ### The decoder's commands -/

/-- R131. -/
def Obligations.DecResetResult : Prop :=
  ∀ s : State, exec .decReset s = .next { s with
    dstate := .waitingForStart, dcur := 0, responses := s.responses ++ [0x00000000#32] }

/-- R133: while waiting, START begins a frame and every other byte is discarded with no other effect. -/
def Obligations.DecPutWhileWaiting : Prop :=
  ∀ (s : State) (b : Byte), s.dstate = .waitingForStart →
    exec (.decPut b) s = .next { s with
      dstate := if b = 0x02#8 then .accepting else .waitingForStart
      responses := s.responses ++ [0x08000000#32] }

/-- R134, R138: START while accepting or escaped drops what was collected and begins a new frame. -/
def Obligations.DecPutStartRestarts : Prop :=
  ∀ s : State, s.dstate = .accepting ∨ s.dstate = .escaped →
    exec (.decPut 0x02#8) s = .next { s with
      dstate := .accepting, dcur := 0, responses := s.responses ++ [0x08000000#32] }

/-- R135, R141, R45: END while accepting. In `Without` mode it completes the frame with every collected byte as payload. In
`With` mode, fewer than four collected bytes, or a trailer that is not the CRC of the bytes before it, is `INTEGRITY` and a
full reset; a matching trailer is `FRAME` with the length of what stands before it. A frame that completes changes
nothing. -/
def Obligations.DecPutEndResult : Prop :=
  ∀ s : State, s.cfg.wf = true → s.dstate = .accepting → s.dcur ≤ decCap s.cfg →
    (s.cfg.decMode = .withoutCrc → exec (.decPut 0x03#8) s = .next
      { s with responses := s.responses ++ [replyWord 0x1 1 0 0 s.dcur] }) ∧
    (s.cfg.decMode = .withCrc → s.dcur < 4 → exec (.decPut 0x03#8) s = .next { s with
      dstate := .waitingForStart, dcur := 0, responses := s.responses ++ [0x58000000#32] }) ∧
    (s.cfg.decMode = .withCrc → ∀ (payload : List Byte) (b3 b2 b1 b0 : Byte),
      s.dbuf.holds (payload ++ [b3, b2, b1, b0]) → s.dcur = payload.length + 4 →
      let rx : Word := (b3.setWidth 32 <<< 24) ||| (b2.setWidth 32 <<< 16) ||| (b1.setWidth 32 <<< 8) ||| b0.setWidth 32
      exec (.decPut 0x03#8) s = .next
        (if rx = crc payload then { s with responses := s.responses ++ [replyWord 0x1 1 0 0 payload.length] }
        else { s with
          dstate := .waitingForStart, dcur := 0, responses := s.responses ++ [0x58000000#32] }))

/-- R136: ESC while accepting; no room check. -/
def Obligations.DecPutEscape : Prop :=
  ∀ s : State, s.cfg.wf = true → s.dstate = .accepting → s.dcur ≤ decCap s.cfg →
    exec (.decPut 0x1B#8) s = .next { s with
      dstate := .escaped, responses := s.responses ++ [replyWord 0x0 1 0 0 s.dcur] }

/-- R137: a plain byte while accepting is stored at the cursor, or `EXHAUSTED` with nothing changed and the byte not
consumed. -/
def Obligations.DecPutStoresPlainByte : Prop :=
  ∀ (s : State) (b : Byte), s.cfg.wf = true → s.dstate = .accepting → s.dcur ≤ decCap s.cfg →
    b ≠ 0x02#8 → b ≠ 0x03#8 → b ≠ 0x1B#8 →
    exec (.decPut b) s = .next
      (if s.dcur < decCap s.cfg then { s with
        dbuf := s.dbuf.write s.dcur b, dcur := s.dcur + 1
        responses := s.responses ++ [replyWord 0x0 1 0 0 (s.dcur + 1)] }
      else { s with responses := s.responses ++ [replyWord 0x3 0 0 0 s.dcur] })

/-- R140: a plain byte after ESC is stored complemented and the decoder accepts again, or `EXHAUSTED` with nothing changed,
the decoder still escaped. -/
def Obligations.DecPutStoresEscapedByte : Prop :=
  ∀ (s : State) (b : Byte), s.cfg.wf = true → s.dstate = .escaped → s.dcur ≤ decCap s.cfg →
    b ≠ 0x02#8 → b ≠ 0x03#8 → b ≠ 0x1B#8 →
    exec (.decPut b) s = .next
      (if s.dcur < decCap s.cfg then { s with
        dbuf := s.dbuf.write s.dcur (~~~b), dcur := s.dcur + 1, dstate := .accepting
        responses := s.responses ++ [replyWord 0x0 1 0 0 (s.dcur + 1)] }
      else { s with responses := s.responses ++ [replyWord 0x3 0 0 0 s.dcur] })

/-- R139: END or ESC after ESC is corruption: a full reset, and `CORRUPT`. -/
def Obligations.DecPutCorruption : Prop :=
  ∀ (s : State) (b : Byte), s.dstate = .escaped → b = 0x03#8 ∨ b = 0x1B#8 →
    exec (.decPut b) s = .next { s with
      dstate := .waitingForStart, dcur := 0, responses := s.responses ++ [0x48000000#32] }

/-- R143: the collected byte below the cursor, or `BADINDEX`. Nothing else changes. -/
def Obligations.DecReadResult : Prop :=
  ∀ (s : State) (i : Nat), s.Inv →
    (i < s.dcur → ∃ v : Byte, s.dbuf.read i = some v ∧
      exec (.decRead i) s = .next { s with responses := s.responses ++ [replyWord 0x0 0 0 0 v.toNat] }) ∧
    (s.dcur ≤ i → exec (.decRead i) s = .next { s with responses := s.responses ++ [0xE0000000#32] })

/-- R144. -/
def Obligations.DecStatResult : Prop :=
  ∀ s : State, s.cfg.wf = true → s.dcur ≤ decCap s.cfg →
    exec .decStat s = .next { s with
      responses := s.responses ++ [replyWord 0x0 0
        (match s.dstate with | .waitingForStart => 0 | .accepting => 1 | .escaped => 2)
        (if s.cfg.decMode = .withCrc then 1 else 0) s.dcur] }

/-- R149: `EXHAUSTED` never resets and does not consume its byte, `CORRUPT` and `INTEGRITY` always fully reset and consume
theirs, and every other outcome of DEC.PUT consumes its byte. -/
def Obligations.DecoderFailuresAreAsymmetric : Prop :=
  ∀ (b : Byte) (s t : State), exec (.decPut b) s = .next t →
    ∃ r : Response, t.responses = s.responses ++ [r.toWord] ∧
      (r.cons = false ↔ r.status = .exhausted) ∧
      (r.status = .exhausted → t = { s with responses := t.responses }) ∧
      (r.status = .corrupt ∨ r.status = .integrity →
        t = { s with dstate := .waitingForStart, dcur := 0, responses := t.responses })

/-- R135: after `FRAME`, END at once gives the same `FRAME` again. -/
def Obligations.RepeatedEndRepeatsTheFrame : Prop :=
  ∀ (s t : State) (len : Nat), len < 2 ^ 24 → exec (.decPut 0x03#8) s = .next t →
    t.responses = s.responses ++ [replyWord 0x1 1 0 0 len] →
    exec (.decPut 0x03#8) t = .next { t with responses := t.responses ++ [replyWord 0x1 1 0 0 len] }

/-- R145: DEC.PUTN stops at the first byte whose status is not `OK`; its count is that byte's index plus its CONS, or the
length of the whole sequence. -/
def Obligations.DecPutNCountsConsumedBytes : Prop :=
  ∀ (bytes : List Byte) (s : State), s.Inv →
    (∃ t oks, decPutN bytes s = .next (t, none, bytes.length) ∧ execAll (bytes.map .decPut) s = .next t ∧
      t.responses = s.responses ++ oks ∧ (oks.all (isOkWord true)) = true) ∨
    (∃ before b after u t oks r, bytes = before ++ b :: after ∧
      execAll (before.map .decPut) s = .next u ∧ u.responses = s.responses ++ oks ∧
      (oks.all (isOkWord true)) = true ∧ exec (.decPut b) u = .next t ∧
      t.responses = u.responses ++ [r.toWord] ∧ r.status ≠ .ok ∧
      decPutN bytes s = .next (t, some r, before.length + (if r.status = .exhausted then 0 else 1)))

/-! ### Wire format and CRC -/

/-- R62, R63: no complemented sentinel is a sentinel; a wire form never holds START or END, and holds ESC only first, before
a byte that is no sentinel. -/
def Obligations.WireFormsHideSentinels : Prop :=
  ∀ b : Byte, (isSentinel b = true → isSentinel (~~~b) = false) ∧
    0x02#8 ∉ wireForm b ∧ 0x03#8 ∉ wireForm b ∧
    (0x1B#8 ∈ wireForm b → ∃ x, wireForm b = [0x1B#8, x] ∧ isSentinel x = false)

/-- R64: START appears in a frame only at index 0 and END only at the last index, whatever the payload and the mode. -/
def Obligations.FrameSentinelPositions : Prop :=
  ∀ (payload : List Byte) (m : Mode) (i : Nat),
    ((frame payload m)[i]? = some 0x02#8 ↔ i = 0) ∧
    ((frame payload m)[i]? = some 0x03#8 ↔ i + 1 = (frame payload m).length)

/-- R66: the length of a frame and its bounds; the worst case at `MAXP` in `With` mode is exactly `ENC_CAP`. -/
def Obligations.FrameLengthBounds : Prop :=
  ∀ payload : List Byte,
    (frame payload .withoutCrc).length = 2 + (payload.map (fun p => (wireForm p).length)).sum ∧
    (frame payload .withCrc).length = 2 + (payload.map (fun p => (wireForm p).length)).sum +
      ((beBytes (crc payload)).map (fun x => (wireForm x).length)).sum ∧
    payload.length + 2 ≤ (frame payload .withoutCrc).length ∧
    (frame payload .withoutCrc).length ≤ 2 * payload.length + 2 ∧
    payload.length + 6 ≤ (frame payload .withCrc).length ∧
    (frame payload .withCrc).length ≤ 2 * payload.length + 10 ∧
    (∀ c : Config, payload.length = c.maxp → 2 * payload.length + 10 = encCap c)

/-- R173: `CRC(s)` is the standard CRC-32: register start 0xFFFFFFFF, the reflected step, final complement; its check value
and the CRC of no bytes. -/
def Obligations.CrcIsTheStandardCrc : Prop :=
  (∀ bytes : List Byte, crc bytes = ~~~(bytes.foldl crcStep 0xFFFFFFFF#32)) ∧
  crc [0x31#8, 0x32#8, 0x33#8, 0x34#8, 0x35#8, 0x36#8, 0x37#8, 0x38#8, 0x39#8] = 0xCBF43926#32 ∧
  crc [] = 0x00000000#32

/-- From R171, R178: two byte sequences of one length that differ in exactly one byte have different CRCs. The CRC is R171's
instance, which is the model's choice (log entry 7). -/
def Obligations.CrcTellsOneByteApart : Prop :=
  ∀ (before after : List Byte) (x y : Byte), x ≠ y → crc (before ++ x :: after) ≠ crc (before ++ y :: after)

/-! ### Frames through the block -/

/-- From R108: from any encoder state, ENC.FRAME of a payload that fits answers `OK` to each ENC.PUT and `FRAME` with the frame's
length to ENC.FIN, and leaves exactly `Frame(P, ENC_MODE)` below the cursor; the decoder is not touched. That ENC.FRAME's result
is the count of its `OK` responses is the model's choice (log entry 14). -/
def Obligations.EncoderBuildsTheFrame : Prop :=
  ∀ (payload : List Byte) (s : State), s.cfg.wf = true → payload.length ≤ maxPayload s.cfg s.cfg.encMode →
    ∃ t oks, encFrame payload s = .next (t, payload.length) ∧
      t.ebuf.holds (frame payload s.cfg.encMode) ∧ t.ecur = (frame payload s.cfg.encMode).length ∧
      t.responses = s.responses ++ 0x00000001#32 :: oks ++ [replyWord 0x1 0 0 0 (frame payload s.cfg.encMode).length] ∧
      oks.length = payload.length ∧ (oks.all (isOkWord false)) = true ∧
      t.decPart = s.decPart ∧ t.cfg = s.cfg

/-- R148, R150: from any decoder state, feeding `Frame(P, DEC_MODE)` byte by byte answers `OK` with CONS = 1 to every byte
but the last and `FRAME(|P|)` to the last, and leaves `DBUF[0..|P|) = P`; the encoder is not touched. The premise on a
waiting decoder is R28's, part of the invariant. -/
def Obligations.DecoderReturnsThePayload : Prop :=
  ∀ (payload : List Byte) (s : State), s.cfg.wf = true → (s.dstate = .waitingForStart → s.dcur = 0) →
    payload.length ≤ maxPayload s.cfg s.cfg.decMode →
    ∃ t oks, execAll ((frame payload s.cfg.decMode).map .decPut) s = .next t ∧
      t.dbuf.holds payload ∧ payload.length ≤ t.dcur ∧
      t.responses = s.responses ++ oks ++ [replyWord 0x1 1 0 0 payload.length] ∧
      oks.length + 1 = (frame payload s.cfg.decMode).length ∧ (oks.all (isOkWord true)) = true ∧
      t.encPart = s.encPart

/-- "For all payloads P of length <= configured max, and either integrity mode, decode(encode(P)) == P" (R148): what the
host reads out of `EBUF` after ENC.FRAME, fed to the decoder of the same block and mode, gives the payload back. That ENC.FRAME's result is the
payload's length is the model's choice (log entry 14). -/
def Obligations.EncodeThenDecodeReturnsThePayload : Prop :=
  ∀ (payload : List Byte) (s : State), s.Inv → s.cfg.encMode = s.cfg.decMode →
    payload.length ≤ maxPayload s.cfg s.cfg.encMode →
    ∃ t u bytes, encFrame payload s = .next (t, payload.length) ∧
      bytes.length = t.ecur ∧ t.ebuf.holds bytes ∧
      execAll (bytes.map .decPut) t = .next u ∧ u.dbuf.holds payload ∧
      u.responses.getLast? = some (replyWord 0x1 1 0 0 payload.length)

/-- R147: START leads to (Accepting, cursor 0) from every state of the decoder, so one START more before any further
commands changes nothing but its own response. -/
def Obligations.ExtraStartChangesNothing : Prop :=
  ∀ (s : State) (further : List Instr), (s.dstate = .waitingForStart → s.dcur = 0) →
    exec (.decPut 0x02#8) s = .next { s with
      dstate := .accepting, dcur := 0, responses := s.responses ++ [0x08000000#32] } ∧
    ∀ t, execAll (.decPut 0x02#8 :: further) s = .next t →
      ∃ new, t.responses = s.responses ++ new ∧
        execAll (.decPut 0x02#8 :: .decPut 0x02#8 :: further) s =
          .next { t with responses := s.responses ++ 0x08000000#32 :: new }

/-- R152: the overflow boundary at `N = DEC_CAP`. -/
def Obligations.OverflowBoundary : Prop :=
  ∀ (s : State) (bytes : List Byte) (x : Byte), s.cfg.wf = true → s.dstate = .accepting → s.dcur = 0 →
    bytes.length = decCap s.cfg → (∀ b ∈ bytes, classify b = .other) → classify x = .other →
    ∃ t, execAll (bytes.map .decPut) s = .next t ∧
      t.responses = s.responses ++ (List.range (decCap s.cfg)).map (fun k => replyWord 0x0 1 0 0 (k + 1)) ∧
      t.dcur = decCap s.cfg ∧ t.dbuf.holds bytes ∧
      exec (.decPut x) t = .next { t with responses := t.responses ++ [replyWord 0x3 0 0 0 (decCap s.cfg)] } ∧
      execAll [.decPut 0x1B#8, .decPut x] t = .next { t with
        dstate := .escaped
        responses := t.responses ++ [replyWord 0x0 1 0 0 (decCap s.cfg), replyWord 0x3 0 0 0 (decCap s.cfg)] } ∧
      exec (.decPut 0x03#8) t = .next
        (if s.cfg.decMode = .withoutCrc then
          { t with responses := t.responses ++ [replyWord 0x1 1 0 0 (decCap s.cfg)] }
        else if beWord (bytes.drop (decCap s.cfg - 4)) = crc (bytes.take (decCap s.cfg - 4)) then
          { t with responses := t.responses ++ [replyWord 0x1 1 0 0 (decCap s.cfg - 4)] }
        else { t with dstate := .waitingForStart, dcur := 0, responses := t.responses ++ [0x58000000#32] })

/-- R151: what the rules give where the modes do not match: the trailer returned as payload, or the payload's own last four
bytes taken for a trailer. -/
def Obligations.MismatchedModes : Prop :=
  ∀ (payload : List Byte) (s : State), s.cfg.wf = true → (s.dstate = .waitingForStart → s.dcur = 0) →
    (s.cfg.decMode = .withoutCrc → payload.length ≤ s.cfg.maxp →
      ∃ t, execAll ((frame payload .withCrc).map .decPut) s = .next t ∧
        t.dbuf.holds (payload ++ beBytes (crc payload)) ∧
        t.responses.getLast? = some (replyWord 0x1 1 0 0 (payload.length + 4))) ∧
    (s.cfg.decMode = .withCrc → payload.length ≤ decCap s.cfg →
      ∃ t, execAll ((frame payload .withoutCrc).map .decPut) s = .next t ∧
        t.responses.getLast? = some
          (if 4 ≤ payload.length ∧
              beWord (payload.drop (payload.length - 4)) = crc (payload.take (payload.length - 4)) then
            replyWord 0x1 1 0 0 (payload.length - 4)
          else 0x58000000#32))

/-- From R141, R175, R178: a `With`-mode decoder that has collected a valid payload and trailer with exactly one byte
changed, in either, rejects it at END: `INTEGRITY` and a full reset. The CRC is R171's instance, which is the model's choice
(log entry 7). -/
def Obligations.OneByteErrorIsRejected : Prop :=
  ∀ (s : State) (payload : List Byte) (k : Nat) (x : Byte),
    s.cfg.wf = true → s.cfg.decMode = .withCrc → s.dstate = .accepting → s.dcur ≤ decCap s.cfg →
    s.dcur = payload.length + 4 → k < s.dcur →
    (payload ++ beBytes (crc payload))[k]? ≠ some x →
    s.dbuf.holds ((payload ++ beBytes (crc payload)).set k x) →
    exec (.decPut 0x03#8) s = .next { s with
      dstate := .waitingForStart, dcur := 0, responses := s.responses ++ [0x58000000#32] }
end

