-- ==== Sys2Proof/Laws/Bytes.lean ====
section
/-! SUPPORT. The laws of bytes on the wire: classes, wire forms, big-endian values, CRC sequences. -/

namespace Sys2Proof.Machine

theorem isSentinel_iff (b : Byte) : isSentinel b = true ↔ b = startByte ∨ b = endByte ∨ b = escByte := by
  simp [isSentinel, or_assoc]

theorem wireForm_sentinel {b : Byte} (h : isSentinel b = true) : wireForm b = [escByte, ~~~b] := by simp [wireForm, h]

theorem wireForm_plain {b : Byte} (h : isSentinel b = false) : wireForm b = [b] := by simp [wireForm, h]

/-- A wire form is one byte or two (`30_encoding.md` R66). -/
theorem wireForm_length (b : Byte) : (wireForm b).length = if isSentinel b then 2 else 1 := by
  unfold wireForm; split <;> rfl

theorem wireForm_length_pos (b : Byte) : 1 ≤ (wireForm b).length := by rw [wireForm_length]; split <;> omega

theorem wireForm_length_le (b : Byte) : (wireForm b).length ≤ 2 := by rw [wireForm_length]; split <;> omega

theorem length_le_wire (bs : List Byte) : bs.length ≤ (bs.flatMap wireForm).length := by
  induction bs with
  | nil => simp
  | cons b bs ih =>
    have := wireForm_length_pos b
    simp only [List.length_cons, List.flatMap_cons, List.length_append]; omega

theorem wire_length_le (bs : List Byte) : (bs.flatMap wireForm).length ≤ 2 * bs.length := by
  induction bs with
  | nil => simp
  | cons b bs ih =>
    have := wireForm_length_le b
    simp only [List.length_cons, List.flatMap_cons, List.length_append]; omega

theorem classify_startByte : classify startByte = .start := by decide
theorem classify_endByte : classify endByte = .fin := by decide
theorem classify_escByte : classify escByte = .esc := by decide

theorem classify_eq_start {b : Byte} : classify b = .start ↔ b = startByte := by
  unfold classify; split <;> [simp_all; split <;> [simp_all; split <;> simp_all]]

theorem classify_eq_fin {b : Byte} : classify b = .fin ↔ b = endByte := by
  constructor
  · unfold classify; split <;> [simp; split <;> [simp_all; split <;> simp]]
  · rintro rfl; decide

theorem classify_eq_esc {b : Byte} : classify b = .esc ↔ b = escByte := by
  constructor
  · unfold classify; split <;> [simp; split <;> [simp; split <;> simp_all]]
  · rintro rfl; decide

theorem classify_eq_other {b : Byte} : classify b = .other ↔ isSentinel b = false := by
  unfold classify isSentinel
  split <;> [simp_all; split <;> [simp_all; split <;> simp_all]]

/-- "No complemented sentinel is itself a sentinel" (`30_encoding.md` R63). -/
theorem complement_not_sentinel {b : Byte} (h : isSentinel b = true) : isSentinel (~~~b) = false := by
  rcases (isSentinel_iff b).mp h with rfl | rfl | rfl <;> decide

theorem beBytes_length (c : Word) : (beBytes c).length = 4 := rfl

/-- Big-endian bytes read back as the value they were made of. -/
theorem beWord_beBytes (c : Word) : beWord (beBytes c) = c := by
  simp only [beBytes, beWord, List.foldl]
  ext i hi
  simp only [BitVec.getElem_or, BitVec.getElem_shiftLeft, BitVec.getElem_setWidth, BitVec.getLsbD_extractLsb']
  have : i = 0 ∨ i = 1 ∨ i = 2 ∨ i = 3 ∨ i = 4 ∨ i = 5 ∨ i = 6 ∨ i = 7 ∨ i = 8 ∨ i = 9 ∨ i = 10 ∨ i = 11 ∨ i = 12
      ∨ i = 13 ∨ i = 14 ∨ i = 15 ∨ i = 16 ∨ i = 17 ∨ i = 18 ∨ i = 19 ∨ i = 20 ∨ i = 21 ∨ i = 22 ∨ i = 23 ∨ i = 24
      ∨ i = 25 ∨ i = 26 ∨ i = 27 ∨ i = 28 ∨ i = 29 ∨ i = 30 ∨ i = 31 := by omega
  rcases this with h | h | h | h | h | h | h | h | h | h | h | h | h | h | h | h | h | h | h | h | h | h | h | h | h | h |
    h | h | h | h | h | h <;> subst h <;> simp [BitVec.getLsbD_eq_getElem]

theorem crc_append (xs : List Byte) (b : Byte) : crc (xs ++ [b]) = crcUpdate (crc xs) b := by
  simp [crc, crcFinal]

end Sys2Proof.Machine
end

