-- ==== Sys2Proof/Laws/CommandWord.lean ====
section
/-! SUPPORT. The laws of a command word: its two fields, and when a row of the opcode table covers it. -/

namespace Sys2Proof

theorem commandWord_toNat (op : BitVec 8) (arg : BitVec 24) :
    (commandWord op arg).toNat = op.toNat * 2 ^ 24 + arg.toNat := by
  show (op ++ arg).toNat = _
  rw [BitVec.toNat_append, ← Nat.shiftLeft_add_eq_or_of_lt arg.isLt, Nat.shiftLeft_eq]

theorem opField_toNat (w : Word) : (opField w).toNat = w.toNat / 2 ^ 24 := by
  have := w.isLt
  rw [opField, BitVec.extractLsb'_toNat, Nat.shiftRight_eq_div_pow]
  omega

theorem argField_toNat (w : Word) : (argField w).toNat = w.toNat % 2 ^ 24 := by
  rw [argField, BitVec.extractLsb'_toNat, Nat.shiftRight_eq_div_pow]
  omega

@[simp] theorem opField_commandWord (op : BitVec 8) (arg : BitVec 24) : opField (commandWord op arg) = op := by
  have := arg.isLt
  apply BitVec.eq_of_toNat_eq
  rw [opField_toNat, commandWord_toNat]
  omega

@[simp] theorem argField_commandWord (op : BitVec 8) (arg : BitVec 24) : argField (commandWord op arg) = arg := by
  have := arg.isLt
  apply BitVec.eq_of_toNat_eq
  rw [argField_toNat, commandWord_toNat]
  omega

/-- A word is its two fields (`30_encoding.md` R70). -/
theorem commandWord_fields (w : Word) : commandWord (opField w) (argField w) = w := by
  have := w.isLt
  apply BitVec.eq_of_toNat_eq
  rw [commandWord_toNat, opField_toNat, argField_toNat]
  omega

theorem commandWord_inj {op op' : BitVec 8} {arg arg' : BitVec 24} :
    commandWord op arg = commandWord op' arg' ↔ op = op' ∧ arg = arg' := by
  constructor
  · intro h
    have h1 := congrArg opField h
    have h2 := congrArg argField h
    simp only [opField_commandWord, argField_commandWord] at h1 h2
    exact ⟨h1, h2⟩
  · rintro ⟨rfl, rfl⟩; rfl

theorem commandWord_and (op mop : BitVec 8) (arg marg : BitVec 24) :
    commandWord op arg &&& commandWord mop marg = commandWord (op &&& mop) (arg &&& marg) := by
  unfold commandWord
  exact BitVec.and_append

/-- When a row covers a word, field by field. -/
theorem covers_commandWord (mn : String) (op mop pop : BitVec 8) (arg marg parg : BitVec 24) :
    OpcodeRow.covers ⟨mn, commandWord mop marg, commandWord pop parg⟩ (commandWord op arg) =
      (decide (op &&& mop = pop) && decide (arg &&& marg = parg)) := by
  simp only [OpcodeRow.covers, commandWord_and, commandWord_inj, Bool.decide_and]

/-- The opcode table with each mask and each pattern cut into its two fields. -/
theorem opcodeTable_fields : opcodeTable =
    [⟨"ENC.RESET", commandWord 0xFF#8 0xFFFFFF#24, commandWord 0x10#8 0#24⟩,
     ⟨"ENC.PUT", commandWord 0xFF#8 0xFFFF00#24, commandWord 0x11#8 0#24⟩,
     ⟨"ENC.FIN", commandWord 0xFF#8 0xFFFFFF#24, commandWord 0x12#8 0#24⟩,
     ⟨"ENC.READ", commandWord 0xFF#8 0x000000#24, commandWord 0x13#8 0#24⟩,
     ⟨"ENC.STAT", commandWord 0xFF#8 0xFFFFFF#24, commandWord 0x14#8 0#24⟩,
     ⟨"DEC.RESET", commandWord 0xFF#8 0xFFFFFF#24, commandWord 0x20#8 0#24⟩,
     ⟨"DEC.PUT", commandWord 0xFF#8 0xFFFF00#24, commandWord 0x21#8 0#24⟩,
     ⟨"DEC.READ", commandWord 0xFF#8 0x000000#24, commandWord 0x22#8 0#24⟩,
     ⟨"DEC.STAT", commandWord 0xFF#8 0xFFFFFF#24, commandWord 0x23#8 0#24⟩] := by rfl

theorem argOfByte_low (b : Byte) : (argOfByte b).extractLsb' 0 8 = b := by
  apply BitVec.eq_of_toNat_eq
  have := b.isLt
  rw [BitVec.extractLsb'_toNat, argOfByte, BitVec.toNat_setWidth, Nat.shiftRight_eq_div_pow]
  omega

/-- The bits above a B-form operand are zero, as its row's mask requires (R71). -/
theorem argOfByte_mask (b : Byte) : argOfByte b &&& 0xFFFF00#24 = 0#24 := by
  ext i hi
  simp only [argOfByte, BitVec.getElem_and, BitVec.getElem_setWidth, BitVec.getElem_zero, Bool.and_eq_false_imp]
  intro h
  have : i < 8 := by
    by_contra hc
    rw [BitVec.getLsbD_of_ge _ _ (by omega)] at h
    cases h
  rcases (by omega : i = 0 ∨ i = 1 ∨ i = 2 ∨ i = 3 ∨ i = 4 ∨ i = 5 ∨ i = 6 ∨ i = 7) with
    rfl | rfl | rfl | rfl | rfl | rfl | rfl | rfl <;> rw [← BitVec.getLsbD_eq_getElem] <;> decide

/-- The bits above a B-form operand are zero (R71). -/
theorem argOfByte_high (b : Byte) : (argOfByte b).extractLsb' 8 16 = 0#16 := by
  apply BitVec.eq_of_toNat_eq
  have := b.isLt
  rw [BitVec.extractLsb'_toNat, argOfByte, BitVec.toNat_setWidth, Nat.shiftRight_eq_div_pow]
  simp; omega

/-- An argument whose bits 23:8 are zero is a byte. -/
theorem argOfByte_of_high {arg : BitVec 24} (h : arg.extractLsb' 8 16 = 0#16) :
    argOfByte (arg.extractLsb' 0 8) = arg := by
  apply BitVec.eq_of_toNat_eq
  have h2 := congrArg BitVec.toNat h
  have := arg.isLt
  rw [BitVec.extractLsb'_toNat, Nat.shiftRight_eq_div_pow] at h2
  rw [argOfByte, BitVec.toNat_setWidth, BitVec.extractLsb'_toNat, Nat.shiftRight_eq_div_pow]
  simp at h2 ⊢; omega

/-- Bits of the argument read off the word. -/
theorem commandWord_extract (op : BitVec 8) (arg : BitVec 24) {k n : Nat} (h : k + n ≤ 24) :
    (commandWord op arg).extractLsb' k n = arg.extractLsb' k n := by
  have : arg = argField (commandWord op arg) := by simp
  conv_rhs => rw [this]
  unfold argField
  ext i hi
  simp only [BitVec.getElem_extractLsb', BitVec.getLsbD_extractLsb']
  simp [show k + i < 24 by omega]

theorem decodeN_commandWord (op : BitVec 8) (arg : BitVec 24) (i : Instr) :
    decodeN (commandWord op arg) i = if arg = 0#24 then .ok i else .error (.reservedArgBits op arg) := by
  simp [decodeN]

theorem decodeB_commandWord (op : BitVec 8) (arg : BitVec 24) (f : Byte → Instr) :
    decodeB (commandWord op arg) f =
      if arg.extractLsb' 8 16 = 0#16 then .ok (f (arg.extractLsb' 0 8)) else .error (.reservedArgBits op arg) := by
  simp [decodeB, commandWord_extract]

theorem decodeI_commandWord (op : BitVec 8) (arg : BitVec 24) (f : Nat → Instr) :
    decodeI (commandWord op arg) f = .ok (f arg.toNat) := by
  simp [decodeI]

/-- The decoder over a word's two fields. -/
theorem decode_commandWord (op : BitVec 8) (arg : BitVec 24) : decode (commandWord op arg) =
    if op = 0x10#8 then decodeN (commandWord op arg) .encReset
    else if op = 0x11#8 then decodeB (commandWord op arg) .encPut
    else if op = 0x12#8 then decodeN (commandWord op arg) .encFin
    else if op = 0x13#8 then decodeI (commandWord op arg) .encRead
    else if op = 0x14#8 then decodeN (commandWord op arg) .encStat
    else if op = 0x20#8 then decodeN (commandWord op arg) .decReset
    else if op = 0x21#8 then decodeB (commandWord op arg) .decPut
    else if op = 0x22#8 then decodeI (commandWord op arg) .decRead
    else if op = 0x23#8 then decodeN (commandWord op arg) .decStat
    else .error (.reservedOpcode op) := by simp [decode]

end Sys2Proof
end

