-- ==== Sys2Proof/Laws/Memory.lean ====
section
/-! SUPPORT. The laws of a buffer: what a write reads as, that it leaves every other index alone, and that it keeps the
canonical form and the capacity. -/

namespace Sys2Proof.Machine

theorem read_write_self (m : Memory) (i : Nat) (v : Byte) : (m.write i v).read i = some v := by
  induction m with
  | nil => simp [Memory.write, Memory.read]
  | cons c m ih =>
    obtain ⟨a, u⟩ := c
    unfold Memory.write
    split
    · simp [Memory.read]
    · split
      · simp [Memory.read]
      · rename_i h; simp [Memory.read, ih, Ne.symm h]

theorem read_write_of_ne (m : Memory) {i j : Nat} (v : Byte) (h : j ≠ i) : (m.write i v).read j = m.read j := by
  induction m with
  | nil => simp [Memory.write, Memory.read, Ne.symm h]
  | cons c m ih =>
    obtain ⟨a, u⟩ := c
    unfold Memory.write
    split
    · simp [Memory.read, Ne.symm h]
    · split
      · rename_i h'; subst h'; simp [Memory.read, Ne.symm h]
      · simp [Memory.read, ih]

theorem mem_write {m : Memory} {i : Nat} {v : Byte} {c : Host.Cell} (h : c ∈ m.write i v) : c = (i, v) ∨ c ∈ m := by
  induction m with
  | nil => simpa [Memory.write] using h
  | cons d m ih =>
    obtain ⟨a, u⟩ := d
    unfold Memory.write at h
    split at h
    · simpa using h
    · split at h
      · rcases List.mem_cons.mp h with h | h
        · exact .inl h
        · exact .inr (List.mem_cons_of_mem _ h)
      · rcases List.mem_cons.mp h with h | h
        · exact .inr (h ▸ List.mem_cons_self)
        · exact (ih h).imp_right (List.mem_cons_of_mem _)

/-- A write keeps the canonical form. -/
theorem write_wf {m : Memory} (h : m.wf) (i : Nat) (v : Byte) : (m.write i v).wf := by
  induction m with
  | nil => simp [Memory.write, Memory.wf]
  | cons c m ih =>
    obtain ⟨a, u⟩ := c
    obtain ⟨hlt, hm⟩ := List.pairwise_cons.mp h
    unfold Memory.write
    split
    · rename_i hia
      refine List.pairwise_cons.mpr ⟨fun d hd => ?_, h⟩
      rcases List.mem_cons.mp hd with rfl | hd
      · exact hia
      · exact Nat.lt_trans hia (hlt d hd)
    · split
      · rename_i hia; subst hia; exact List.pairwise_cons.mpr ⟨hlt, hm⟩
      · refine List.pairwise_cons.mpr ⟨fun d hd => ?_, ih hm⟩
        rcases mem_write hd with rfl | hd
        · show a < i; omega
        · exact hlt d hd

/-- A write below the capacity stays inside it. -/
theorem write_inside {m : Memory} {cap i : Nat} (h : m.inside cap) (hi : i < cap) (v : Byte) :
    (m.write i v).inside cap := by
  intro c hc
  rcases mem_write hc with rfl | hc
  · exact hi
  · exact h c hc

/-- A written sequence reads back; every other index is as it was. -/
theorem read_writeSeq (m : Memory) (i j : Nat) (bs : List Byte) :
    (m.writeSeq i bs).read j = if i ≤ j ∧ j < i + bs.length then bs[j - i]? else m.read j := by
  induction bs generalizing m i with
  | nil => simp [Memory.writeSeq]
  | cons b bs ih =>
    rw [Memory.writeSeq, ih]
    by_cases hj : j = i
    · subst hj; simp [read_write_self]
    · rw [read_write_of_ne _ _ hj]
      by_cases hlt : i + 1 ≤ j ∧ j < i + 1 + bs.length
      · have h2 : i ≤ j ∧ j < i + (b :: bs).length := by simp; omega
        have : j - i = (j - (i + 1)) + 1 := by omega
        rw [if_pos hlt, if_pos h2, this, List.getElem?_cons_succ]
      · have h2 : ¬(i ≤ j ∧ j < i + (b :: bs).length) := by simp; omega
        rw [if_neg hlt, if_neg h2]

theorem writeSeq_wf {m : Memory} (h : m.wf) (i : Nat) (bs : List Byte) : (m.writeSeq i bs).wf := by
  induction bs generalizing m i with
  | nil => exact h
  | cons b bs ih => exact ih (write_wf h i b) (i + 1)

theorem writeSeq_inside {m : Memory} {cap : Nat} (h : m.inside cap) (i : Nat) (bs : List Byte)
    (hb : i + bs.length ≤ cap) : (m.writeSeq i bs).inside cap := by
  induction bs generalizing m i with
  | nil => exact h
  | cons b bs ih =>
    simp only [List.length_cons] at hb
    exact ih (write_inside h (by omega) b) (i + 1) (by omega)

theorem writeSeq_append (m : Memory) (i : Nat) (xs ys : List Byte) :
    m.writeSeq i (xs ++ ys) = (m.writeSeq i xs).writeSeq (i + xs.length) ys := by
  induction xs generalizing m i with
  | nil => simp [Memory.writeSeq]
  | cons x xs ih =>
    simp only [List.cons_append, Memory.writeSeq, ih, List.length_cons]
    congr 1; omega

/-- Writing at the cursor and moving it past the bytes written keeps every byte below it written. -/
theorem filled_writeSeq {m : Memory} {cur : Nat} (h : m.filled cur) (bs : List Byte) :
    (m.writeSeq cur bs).filled (cur + bs.length) := by
  intro i hi
  rw [read_writeSeq]
  split
  · rename_i hc
    have : i - cur < bs.length := by omega
    simp [List.getElem?_eq_getElem this]
  · exact h i (by omega)

theorem writeSeq_singleton (m : Memory) (i : Nat) (v : Byte) : m.writeSeq i [v] = m.write i v := rfl

theorem filled_write {m : Memory} {cur : Nat} (h : m.filled cur) (v : Byte) : (m.write cur v).filled (cur + 1) :=
  filled_writeSeq h [v]

theorem holds_writeSeq {m : Memory} {xs : List Byte} (h : m.holds xs) (ys : List Byte) :
    (m.writeSeq xs.length ys).holds (xs ++ ys) := by
  intro i hi
  rw [read_writeSeq]
  rw [List.length_append] at hi
  split
  · rename_i hc; rw [List.getElem?_append_right hc.1]
  · rw [List.getElem?_append_left (by omega)]; exact h i (by omega)

theorem holds_write {m : Memory} {xs : List Byte} (h : m.holds xs) (v : Byte) :
    (m.write xs.length v).holds (xs ++ [v]) := holds_writeSeq h [v]

theorem holds_nil (m : Memory) : m.holds [] := fun _ h => absurd h (Nat.not_lt_zero _)

/-- A filled window holds some byte sequence, and only one of its length. -/
theorem exists_holds {m : Memory} {n : Nat} (h : m.filled n) : ∃ bytes, bytes.length = n ∧ m.holds bytes := by
  induction n with
  | zero => exact ⟨[], rfl, holds_nil m⟩
  | succ n ih =>
    obtain ⟨bytes, hl, hb⟩ := ih (fun i hi => h i (by omega))
    obtain ⟨v, hv⟩ := Option.isSome_iff_exists.mp (h n (by omega))
    refine ⟨bytes ++ [v], by simp [hl], fun i hi => ?_⟩
    simp only [List.length_append, List.length_singleton] at hi
    by_cases hi' : i < bytes.length
    · rw [List.getElem?_append_left hi']; exact hb i hi'
    · have : i = n := by omega
      subst this
      rw [List.getElem?_append_right (by omega), hl, hv]; simp

end Sys2Proof.Machine
end

