-- ==== Sys2Proof/Laws/State.lean ====
section
/-! SUPPORT. One lemma per field per update of the state, each true by `rfl`, so that no later proof unfolds a record
update; then the fields of the two updates that look at the build. -/

namespace Sys2Proof.Machine

@[simp] theorem answer_cfg (r : Response) (s : State) : (answer r s).cfg = s.cfg := rfl
@[simp] theorem answer_ebuf (r : Response) (s : State) : (answer r s).ebuf = s.ebuf := rfl
@[simp] theorem answer_ecur (r : Response) (s : State) : (answer r s).ecur = s.ecur := rfl
@[simp] theorem answer_eacc (r : Response) (s : State) : (answer r s).eacc = s.eacc := rfl
@[simp] theorem answer_dbuf (r : Response) (s : State) : (answer r s).dbuf = s.dbuf := rfl
@[simp] theorem answer_dcur (r : Response) (s : State) : (answer r s).dcur = s.dcur := rfl
@[simp] theorem answer_dstate (r : Response) (s : State) : (answer r s).dstate = s.dstate := rfl
@[simp] theorem answer_inputs (r : Response) (s : State) : (answer r s).inputs = s.inputs := rfl
@[simp] theorem answer_responses (r : Response) (s : State) : (answer r s).responses = s.responses ++ [r.toWord] := rfl

@[simp] theorem writeEbuf_cfg (i : Nat) (bs : List Byte) (s : State) : (writeEbuf i bs s).cfg = s.cfg := rfl
@[simp] theorem writeEbuf_ebuf (i : Nat) (bs : List Byte) (s : State) : (writeEbuf i bs s).ebuf = s.ebuf.writeSeq i bs := rfl
@[simp] theorem writeEbuf_ecur (i : Nat) (bs : List Byte) (s : State) : (writeEbuf i bs s).ecur = s.ecur := rfl
@[simp] theorem writeEbuf_eacc (i : Nat) (bs : List Byte) (s : State) : (writeEbuf i bs s).eacc = s.eacc := rfl
@[simp] theorem writeEbuf_dbuf (i : Nat) (bs : List Byte) (s : State) : (writeEbuf i bs s).dbuf = s.dbuf := rfl
@[simp] theorem writeEbuf_dcur (i : Nat) (bs : List Byte) (s : State) : (writeEbuf i bs s).dcur = s.dcur := rfl
@[simp] theorem writeEbuf_dstate (i : Nat) (bs : List Byte) (s : State) : (writeEbuf i bs s).dstate = s.dstate := rfl
@[simp] theorem writeEbuf_inputs (i : Nat) (bs : List Byte) (s : State) : (writeEbuf i bs s).inputs = s.inputs := rfl
@[simp] theorem writeEbuf_responses (i : Nat) (bs : List Byte) (s : State) : (writeEbuf i bs s).responses = s.responses := rfl

@[simp] theorem writeDbuf_cfg (i : Nat) (v : Byte) (s : State) : (writeDbuf i v s).cfg = s.cfg := rfl
@[simp] theorem writeDbuf_ebuf (i : Nat) (v : Byte) (s : State) : (writeDbuf i v s).ebuf = s.ebuf := rfl
@[simp] theorem writeDbuf_ecur (i : Nat) (v : Byte) (s : State) : (writeDbuf i v s).ecur = s.ecur := rfl
@[simp] theorem writeDbuf_eacc (i : Nat) (v : Byte) (s : State) : (writeDbuf i v s).eacc = s.eacc := rfl
@[simp] theorem writeDbuf_dbuf (i : Nat) (v : Byte) (s : State) : (writeDbuf i v s).dbuf = s.dbuf.write i v := rfl
@[simp] theorem writeDbuf_dcur (i : Nat) (v : Byte) (s : State) : (writeDbuf i v s).dcur = s.dcur := rfl
@[simp] theorem writeDbuf_dstate (i : Nat) (v : Byte) (s : State) : (writeDbuf i v s).dstate = s.dstate := rfl
@[simp] theorem writeDbuf_inputs (i : Nat) (v : Byte) (s : State) : (writeDbuf i v s).inputs = s.inputs := rfl
@[simp] theorem writeDbuf_responses (i : Nat) (v : Byte) (s : State) : (writeDbuf i v s).responses = s.responses := rfl

@[simp] theorem encFullReset_cfg (s : State) : (encFullReset s).cfg = s.cfg := rfl
@[simp] theorem encFullReset_ebuf (s : State) : (encFullReset s).ebuf = s.ebuf.write 0 startByte := rfl
@[simp] theorem encFullReset_ecur (s : State) : (encFullReset s).ecur = 1 := rfl
@[simp] theorem encFullReset_eacc (s : State) : (encFullReset s).eacc = crcInit := rfl
@[simp] theorem encFullReset_dbuf (s : State) : (encFullReset s).dbuf = s.dbuf := rfl
@[simp] theorem encFullReset_dcur (s : State) : (encFullReset s).dcur = s.dcur := rfl
@[simp] theorem encFullReset_dstate (s : State) : (encFullReset s).dstate = s.dstate := rfl
@[simp] theorem encFullReset_inputs (s : State) : (encFullReset s).inputs = s.inputs := rfl
@[simp] theorem encFullReset_responses (s : State) : (encFullReset s).responses = s.responses := rfl

@[simp] theorem decFullReset_cfg (s : State) : (decFullReset s).cfg = s.cfg := rfl
@[simp] theorem decFullReset_ebuf (s : State) : (decFullReset s).ebuf = s.ebuf := rfl
@[simp] theorem decFullReset_ecur (s : State) : (decFullReset s).ecur = s.ecur := rfl
@[simp] theorem decFullReset_eacc (s : State) : (decFullReset s).eacc = s.eacc := rfl
@[simp] theorem decFullReset_dbuf (s : State) : (decFullReset s).dbuf = s.dbuf := rfl
@[simp] theorem decFullReset_dcur (s : State) : (decFullReset s).dcur = 0 := rfl
@[simp] theorem decFullReset_dstate (s : State) : (decFullReset s).dstate = .waitingForStart := rfl
@[simp] theorem decFullReset_inputs (s : State) : (decFullReset s).inputs = s.inputs := rfl
@[simp] theorem decFullReset_responses (s : State) : (decFullReset s).responses = s.responses := rfl

@[simp] theorem decRestart_cfg (s : State) : (decRestart s).cfg = s.cfg := rfl
@[simp] theorem decRestart_ebuf (s : State) : (decRestart s).ebuf = s.ebuf := rfl
@[simp] theorem decRestart_ecur (s : State) : (decRestart s).ecur = s.ecur := rfl
@[simp] theorem decRestart_eacc (s : State) : (decRestart s).eacc = s.eacc := rfl
@[simp] theorem decRestart_dbuf (s : State) : (decRestart s).dbuf = s.dbuf := rfl
@[simp] theorem decRestart_dcur (s : State) : (decRestart s).dcur = 0 := rfl
@[simp] theorem decRestart_dstate (s : State) : (decRestart s).dstate = .accepting := rfl
@[simp] theorem decRestart_inputs (s : State) : (decRestart s).inputs = s.inputs := rfl
@[simp] theorem decRestart_responses (s : State) : (decRestart s).responses = s.responses := rfl

@[simp] theorem hardwareReset_cfg (s : State) : (hardwareReset s).cfg = s.cfg := rfl
@[simp] theorem hardwareReset_ebuf (s : State) : (hardwareReset s).ebuf = [(0, startByte)] := rfl
@[simp] theorem hardwareReset_ecur (s : State) : (hardwareReset s).ecur = 1 := rfl
@[simp] theorem hardwareReset_eacc (s : State) : (hardwareReset s).eacc = crcInit := rfl
@[simp] theorem hardwareReset_dbuf (s : State) : (hardwareReset s).dbuf = [] := rfl
@[simp] theorem hardwareReset_dcur (s : State) : (hardwareReset s).dcur = 0 := rfl
@[simp] theorem hardwareReset_dstate (s : State) : (hardwareReset s).dstate = .waitingForStart := rfl
@[simp] theorem hardwareReset_inputs (s : State) : (hardwareReset s).inputs = s.inputs := rfl
@[simp] theorem hardwareReset_responses (s : State) : (hardwareReset s).responses = s.responses := rfl

@[simp] theorem presentWord_cfg (w : Word) (s : State) : (presentWord w s).cfg = s.cfg := rfl
@[simp] theorem presentWord_ebuf (w : Word) (s : State) : (presentWord w s).ebuf = s.ebuf := rfl
@[simp] theorem presentWord_ecur (w : Word) (s : State) : (presentWord w s).ecur = s.ecur := rfl
@[simp] theorem presentWord_eacc (w : Word) (s : State) : (presentWord w s).eacc = s.eacc := rfl
@[simp] theorem presentWord_dbuf (w : Word) (s : State) : (presentWord w s).dbuf = s.dbuf := rfl
@[simp] theorem presentWord_dcur (w : Word) (s : State) : (presentWord w s).dcur = s.dcur := rfl
@[simp] theorem presentWord_dstate (w : Word) (s : State) : (presentWord w s).dstate = s.dstate := rfl
@[simp] theorem presentWord_inputs (w : Word) (s : State) : (presentWord w s).inputs = .command w :: s.inputs := rfl
@[simp] theorem presentWord_responses (w : Word) (s : State) : (presentWord w s).responses = s.responses := rfl

@[simp] theorem resetOf_cfg (c : Config) : (State.resetOf c).cfg = c := rfl
@[simp] theorem resetOf_ebuf (c : Config) : (State.resetOf c).ebuf = [(0, startByte)] := rfl
@[simp] theorem resetOf_ecur (c : Config) : (State.resetOf c).ecur = 1 := rfl
@[simp] theorem resetOf_eacc (c : Config) : (State.resetOf c).eacc = crcInit := rfl
@[simp] theorem resetOf_dbuf (c : Config) : (State.resetOf c).dbuf = [] := rfl
@[simp] theorem resetOf_dcur (c : Config) : (State.resetOf c).dcur = 0 := rfl
@[simp] theorem resetOf_dstate (c : Config) : (State.resetOf c).dstate = .waitingForStart := rfl
@[simp] theorem resetOf_inputs (c : Config) : (State.resetOf c).inputs = [] := rfl
@[simp] theorem resetOf_responses (c : Config) : (State.resetOf c).responses = [] := rfl

theorem encAccumulate_with (b : Byte) (s : State) (h : s.cfg.encMode = .withCrc) :
    encAccumulate b s = { s with eacc := crcUpdate s.eacc b } := by
  simp [encAccumulate, h]

theorem encAccumulate_without (b : Byte) (s : State) (h : s.cfg.encMode = .withoutCrc) : encAccumulate b s = s := by
  simp [encAccumulate, h]

@[simp] theorem encAccumulate_cfg (b : Byte) (s : State) : (encAccumulate b s).cfg = s.cfg := by
  unfold encAccumulate; split <;> rfl
@[simp] theorem encAccumulate_ebuf (b : Byte) (s : State) : (encAccumulate b s).ebuf = s.ebuf := by
  unfold encAccumulate; split <;> rfl
@[simp] theorem encAccumulate_ecur (b : Byte) (s : State) : (encAccumulate b s).ecur = s.ecur := by
  unfold encAccumulate; split <;> rfl
@[simp] theorem encAccumulate_dbuf (b : Byte) (s : State) : (encAccumulate b s).dbuf = s.dbuf := by
  unfold encAccumulate; split <;> rfl
@[simp] theorem encAccumulate_dcur (b : Byte) (s : State) : (encAccumulate b s).dcur = s.dcur := by
  unfold encAccumulate; split <;> rfl
@[simp] theorem encAccumulate_dstate (b : Byte) (s : State) : (encAccumulate b s).dstate = s.dstate := by
  unfold encAccumulate; split <;> rfl
@[simp] theorem encAccumulate_inputs (b : Byte) (s : State) : (encAccumulate b s).inputs = s.inputs := by
  unfold encAccumulate; split <;> rfl
@[simp] theorem encAccumulate_responses (b : Byte) (s : State) : (encAccumulate b s).responses = s.responses := by
  unfold encAccumulate; split <;> rfl

end Sys2Proof.Machine
end

