-- ==== Sys2Proof/Laws/Ops.lean ====
section
/-! SUPPORT. What each shared operation can do, said once, and that each keeps the invariant. -/

namespace Sys2Proof.Machine

/-! ### Reading -/

theorem memRead_ok {s : State} {b : Buffer} {i : Nat} {v : Byte} (hi : i < capacity s b)
    (hv : (bufferOf s b).read i = some v) : memRead s b i = .ok v := by
  simp [memRead, hi, hv]

/-- The collected bytes are read whole where the buffer holds them inside its capacity. -/
theorem readFirst_ok {s : State} {b : Buffer} {bytes : List Byte} (hc : bytes.length ≤ capacity s b)
    (hb : (bufferOf s b).holds bytes) {n : Nat} (hn : n ≤ bytes.length) :
    readFirst s b n = .ok (bytes.take n) := by
  induction n with
  | zero => rfl
  | succ n ih =>
    have hlt : n < bytes.length := hn
    have hr : memRead s b n = .ok bytes[n] :=
      memRead_ok (by omega) (by rw [hb n hlt, List.getElem?_eq_getElem hlt])
    simp [readFirst, ih (by omega), hr]

/-! ### The encoder's append step -/

theorem encAppend_none {b : Byte} {s : State} (h : encCap s.cfg - 1 < s.ecur + (wireForm b).length) :
    encAppend b s = none := if_pos h

theorem encAppend_some {b : Byte} {s : State} (h : s.ecur + (wireForm b).length ≤ encCap s.cfg - 1) :
    encAppend b s = some { s with
      ebuf := s.ebuf.writeSeq s.ecur (wireForm b), ecur := s.ecur + (wireForm b).length } :=
  if_neg (by omega)

/-- All `EncAppend` can do: the room test decides it, and a byte appended keeps the slot for END free
(`41_encoder.md` R100). -/
theorem encAppend_cases {b : Byte} {s : State} {r : Option State} (h : encAppend b s = r) :
    (r = none ∧ encCap s.cfg - 1 < s.ecur + (wireForm b).length) ∨
    (r = some { s with ebuf := s.ebuf.writeSeq s.ecur (wireForm b), ecur := s.ecur + (wireForm b).length } ∧
      s.ecur + (wireForm b).length ≤ encCap s.cfg - 1) := by
  by_cases hc : s.ecur + (wireForm b).length ≤ encCap s.cfg - 1
  · exact .inr ⟨by rw [← h, encAppend_some hc], hc⟩
  · exact .inl ⟨by rw [← h, encAppend_none (by omega)], by omega⟩

/-- Every index `EncAppend` writes is below `ENC_CAP - 1` (`00_scope.md` R10). -/
theorem encAppend_inside {b : Byte} {s t : State} (h : encAppend b s = some t) :
    t.ecur ≤ encCap s.cfg - 1 ∧ s.ecur < t.ecur := by
  rcases encAppend_cases h with ⟨h, -⟩ | ⟨h, hc⟩
  · cases h
  · cases h; exact ⟨hc, by have := wireForm_length_pos b; show s.ecur < s.ecur + _; omega⟩

/-- The state after a byte sequence's wire forms are appended. -/
def appended (bs : List Byte) (s : State) : State :=
  { s with ebuf := s.ebuf.writeSeq s.ecur (bs.flatMap wireForm), ecur := s.ecur + (bs.flatMap wireForm).length }

theorem appended_nil (s : State) : appended [] s = s := by simp [appended, Memory.writeSeq]

theorem appended_cons (b : Byte) (bs : List Byte) (s : State) :
    appended (b :: bs) s = appended bs { s with
      ebuf := s.ebuf.writeSeq s.ecur (wireForm b), ecur := s.ecur + (wireForm b).length } := by
  simp [appended, writeSeq_append, Nat.add_assoc]

/-- A sequence that fits is appended whole. -/
theorem encAppendAll_fits {bs : List Byte} {s : State}
    (h : s.ecur + (bs.flatMap wireForm).length ≤ encCap s.cfg - 1) : encAppendAll bs s = (appended bs s, true) := by
  induction bs generalizing s with
  | nil => simp [encAppendAll, appended_nil]
  | cons b bs ih =>
    simp only [List.flatMap_cons, List.length_append] at h
    rw [encAppendAll, encAppend_some (by omega), appended_cons]
    exact ih (by show s.ecur + _ + _ ≤ encCap s.cfg - 1; omega)

/-- A sequence whose byte after `xs` does not fit is appended up to it, and no further. -/
theorem encAppendAll_stops {xs ys : List Byte} {b : Byte} {s : State}
    (hx : xs = [] ∨ s.ecur + (xs.flatMap wireForm).length ≤ encCap s.cfg - 1)
    (hb : encCap s.cfg - 1 < s.ecur + (xs.flatMap wireForm).length + (wireForm b).length) :
    encAppendAll (xs ++ b :: ys) s = (appended xs s, false) := by
  induction xs generalizing s with
  | nil =>
    rw [List.nil_append, encAppendAll, encAppend_none (by simpa using hb), appended_nil]
  | cons x xs ih =>
    have hx : s.ecur + ((x :: xs).flatMap wireForm).length ≤ encCap s.cfg - 1 := by simpa using hx
    simp only [List.flatMap_cons, List.length_append] at hx hb
    rw [List.cons_append, encAppendAll, encAppend_some (by omega), appended_cons]
    exact ih (.inr (by show s.ecur + _ + _ ≤ encCap s.cfg - 1; omega))
      (by show encCap s.cfg - 1 < s.ecur + _ + _ + _; omega)

/-- All that appending a sequence can do: a prefix lands, and it is the whole sequence exactly where the answer is
`true`. -/
theorem encAppendAll_cases (bs : List Byte) (s : State) :
    (encAppendAll bs s = (appended bs s, true) ∧
      (bs = [] ∨ s.ecur + (bs.flatMap wireForm).length ≤ encCap s.cfg - 1)) ∨
    ∃ xs b ys, bs = xs ++ b :: ys ∧ encAppendAll bs s = (appended xs s, false) ∧
      (xs = [] ∨ s.ecur + (xs.flatMap wireForm).length ≤ encCap s.cfg - 1) ∧
      encCap s.cfg - 1 < s.ecur + (xs.flatMap wireForm).length + (wireForm b).length := by
  induction bs generalizing s with
  | nil => exact .inl ⟨by simp [encAppendAll, appended_nil], .inl rfl⟩
  | cons b bs ih =>
    by_cases hc : s.ecur + (wireForm b).length ≤ encCap s.cfg - 1
    · rcases ih { s with ebuf := s.ebuf.writeSeq s.ecur (wireForm b), ecur := s.ecur + (wireForm b).length } with
        ⟨h, hf⟩ | ⟨xs, y, ys, rfl, h, hx, hy⟩
      · refine .inl ⟨by rw [encAppendAll, encAppend_some hc, appended_cons]; exact h, .inr ?_⟩
        simp only [List.flatMap_cons, List.length_append]
        rcases hf with rfl | hf
        · simpa using hc
        · simp only at hf; omega
      · refine .inr ⟨b :: xs, y, ys, rfl, by rw [encAppendAll, encAppend_some hc, appended_cons]; exact h, .inr ?_, ?_⟩
        · simp only [List.flatMap_cons, List.length_append]
          rcases hx with rfl | hx
          · simpa using hc
          · simp only at hx; omega
        · simp only [List.flatMap_cons, List.length_append] at hy ⊢; omega
    · exact .inr ⟨[], b, bs, rfl, by rw [encAppendAll, encAppend_none (by omega), appended_nil], .inl rfl,
        by simp only [List.flatMap_nil, List.length_nil]; omega⟩

/-! ### The decoder's store and validation -/

theorem decStore_some {v : Byte} {s : State} (h : s.dcur < decCap s.cfg) :
    decStore v s = some { s with dbuf := s.dbuf.write s.dcur v, dcur := s.dcur + 1, dstate := .accepting } := if_pos h

theorem decStore_none {v : Byte} {s : State} (h : decCap s.cfg ≤ s.dcur) : decStore v s = none :=
  if_neg (by omega)

theorem validate_without {s : State} (h : s.cfg.decMode = .withoutCrc) : validate s = .ok (some s.dcur) := by
  simp [validate, h]

theorem validate_short {s : State} (h : s.cfg.decMode = .withCrc) (hd : s.dcur < crcLen) : validate s = .ok none := by
  simp [validate, h, hd]

/-- Validation of the bytes a `With`-mode decoder holds (`42_decoder.md` R141). -/
theorem validate_with {s : State} {bytes : List Byte} (h : s.cfg.decMode = .withCrc) (hb : s.dbuf.holds bytes)
    (hl : bytes.length = s.dcur) (hc : s.dcur ≤ decCap s.cfg) (hd : crcLen ≤ s.dcur) :
    validate s = .ok (if trailerMatches bytes then some (s.dcur - crcLen) else none) := by
  have hr : readFirst s .dbuf s.dcur = .ok bytes := by
    have := readFirst_ok (s := s) (b := .dbuf) (bytes := bytes) (by rw [hl]; exact hc) hb (Nat.le_refl _)
    rwa [List.take_length, hl] at this
  simp [validate, h, show ¬ s.dcur < crcLen by omega, hr]

/-! ### The invariant -/

theorem inv_answer {s : State} (h : s.Inv) (r : Response) : (answer r s).Inv := { h with }

theorem inv_inputs {s : State} (h : s.Inv) (l : List HostInput) : State.Inv { s with inputs := l } := { h with }

theorem inv_responses {s : State} (h : s.Inv) (l : List Word) : State.Inv { s with responses := l } := { h with }

/-- Bytes appended inside the capacity keep the invariant. -/
theorem inv_written {s : State} (h : s.Inv) (bs : List Byte) (hc : s.ecur + bs.length ≤ encCap s.cfg) :
    State.Inv { s with ebuf := s.ebuf.writeSeq s.ecur bs, ecur := s.ecur + bs.length } :=
  { h with
    ebufCanonical := writeSeq_wf h.ebufCanonical _ _
    ebufInside := writeSeq_inside h.ebufInside _ _ hc
    ecurPos := Nat.le_trans h.ecurPos (Nat.le_add_right _ _)
    ecurBound := hc
    ebufStart := by
      have := h.ecurPos
      show (s.ebuf.writeSeq s.ecur bs).read 0 = _
      rw [read_writeSeq, if_neg (by omega)]; exact h.ebufStart
    ebufFilled := filled_writeSeq h.ebufFilled _ }

theorem inv_appended {s : State} (h : s.Inv) (bs : List Byte)
    (hc : bs = [] ∨ s.ecur + (bs.flatMap wireForm).length ≤ encCap s.cfg - 1) : (appended bs s).Inv := by
  rcases hc with rfl | hc
  · rwa [appended_nil]
  · exact inv_written h _ (by omega)

theorem inv_encAccumulate {s : State} (h : s.Inv) (b : Byte) : (encAccumulate b s).Inv := by
  cases hm : s.cfg.encMode with
  | withCrc =>
    rw [encAccumulate_with b s hm]
    exact { h with eaccIdle := fun h' => absurd (hm.symm.trans h') (by decide) }
  | withoutCrc => rwa [encAccumulate_without b s hm]

theorem encCap_pos (c : Config) : 10 ≤ encCap c := by unfold encCap crcLen; omega

theorem inv_encFullReset {s : State} (h : s.Inv) : (encFullReset s).Inv :=
  { h with
    ebufCanonical := write_wf h.ebufCanonical _ _
    ebufInside := write_inside h.ebufInside (by have := encCap_pos s.cfg; omega) _
    ecurPos := Nat.le_refl _
    ecurBound := by have := encCap_pos s.cfg; show 1 ≤ encCap s.cfg; omega
    ebufStart := read_write_self _ _ _
    ebufFilled := fun i hi => by
      have : i = 0 := by simp at hi; exact hi
      subst this; show ((s.ebuf.write 0 startByte).read 0).isSome
      rw [read_write_self]; rfl
    eaccIdle := fun _ => rfl }

theorem inv_decFullReset {s : State} (h : s.Inv) : (decFullReset s).Inv :=
  { h with
    dcurBound := Nat.zero_le _
    dbufFilled := fun _ hi => absurd hi (Nat.not_lt_zero _)
    waitingEmpty := fun _ => rfl }

theorem inv_decRestart {s : State} (h : s.Inv) : (decRestart s).Inv :=
  { h with
    dcurBound := Nat.zero_le _
    dbufFilled := fun _ hi => absurd hi (Nat.not_lt_zero _)
    waitingEmpty := fun _ => rfl }

theorem inv_dstate {s : State} (h : s.Inv) {d : DState} (hd : d ≠ .waitingForStart) :
    State.Inv { s with dstate := d } := { h with waitingEmpty := fun h' => absurd h' hd }

theorem inv_decStore {s t : State} {v : Byte} (h : s.Inv) (ht : decStore v s = some t) : t.Inv := by
  by_cases hc : s.dcur < decCap s.cfg
  · rw [decStore_some hc] at ht
    cases ht
    exact
      { h with
        dbufCanonical := write_wf h.dbufCanonical _ _
        dbufInside := write_inside h.dbufInside hc _
        dcurBound := hc
        dbufFilled := filled_write h.dbufFilled v
        waitingEmpty := fun h' => by cases h' }
  · rw [decStore_none (by omega)] at ht; cases ht

/-- The hardware reset makes the invariant hold, whatever state it finds. -/
theorem inv_hardwareReset {s : State} (h : s.cfg.wf) : (hardwareReset s).Inv where
  build := h
  ebufCanonical := by simp [Memory.wf]
  ebufInside := fun c hc => by
    have := encCap_pos s.cfg
    simp only [hardwareReset_ebuf, List.mem_singleton] at hc
    subst hc; show 0 < encCap s.cfg; omega
  ecurPos := Nat.le_refl _
  ecurBound := by have := encCap_pos s.cfg; show 1 ≤ encCap s.cfg; omega
  ebufStart := rfl
  ebufFilled := fun i hi => by
    have : i = 0 := by simpa using hi
    subst this; rfl
  eaccIdle := fun _ => rfl
  dbufCanonical := by simp [Memory.wf]
  dbufInside := fun c hc => by simp at hc
  dcurBound := Nat.zero_le _
  dbufFilled := fun _ hi => absurd hi (Nat.not_lt_zero _)
  waitingEmpty := fun _ => rfl

/-! ### What the invariant gives a command -/

theorem encCap_lt {c : Config} (h : c.wf) : encCap c < 2 ^ 24 := by
  have : c.maxp ≤ 8388602 := by simpa [Config.wf] using h
  unfold encCap crcLen; omega

theorem decCap_lt {c : Config} (h : c.wf) : decCap c < 2 ^ 24 := by
  have : c.maxp ≤ 8388602 := by simpa [Config.wf] using h
  unfold decCap crcLen; omega

theorem Inv_read_ebuf {s : State} (h : s.Inv) {i : Nat} (hi : i < s.ecur) :
    ∃ v, s.ebuf.read i = some v ∧ memRead s .ebuf i = .ok v := by
  obtain ⟨v, hv⟩ := Option.isSome_iff_exists.mp (h.ebufFilled i hi)
  exact ⟨v, hv, memRead_ok (Nat.lt_of_lt_of_le hi h.ecurBound) hv⟩

theorem Inv_read_dbuf {s : State} (h : s.Inv) {i : Nat} (hi : i < s.dcur) :
    ∃ v, s.dbuf.read i = some v ∧ memRead s .dbuf i = .ok v := by
  obtain ⟨v, hv⟩ := Option.isSome_iff_exists.mp (h.dbufFilled i hi)
  exact ⟨v, hv, memRead_ok (Nat.lt_of_lt_of_le hi h.dcurBound) hv⟩

/-- Validation never stops a state that meets the invariant. -/
theorem Inv_validate {s : State} (h : s.Inv) : ∃ r, validate s = .ok r := by
  cases hm : s.cfg.decMode with
  | withoutCrc => exact ⟨_, validate_without hm⟩
  | withCrc =>
    by_cases hd : s.dcur < crcLen
    · exact ⟨_, validate_short hm hd⟩
    · obtain ⟨bytes, hl, hb⟩ := exists_holds h.dbufFilled
      exact ⟨_, validate_with hm hb hl h.dcurBound (by omega)⟩

end Sys2Proof.Machine
end

