-- ==== Sys2Proof/Laws/PerInstr.lean ====
section
/-! SUPPORT. Facts about every command as syntax, one lemma per constructor. -/

namespace Sys2Proof.Laws.OwnRow

/-- The command's word falls under its own row of the opcode table and under no other (`30_encoding.md` R72). -/
def Statement (i : Instr) : Prop := opcodeTable.filter (fun r => r.covers (encode i)) = [opcodeRow i]

theorem encReset : Statement .encReset := by unfold Statement; decide

theorem encPut (b : Byte) : Statement (.encPut b) := by
  simp [Statement, opcodeTable_fields, encode, covers_commandWord, argOfByte_mask, opcodeRow]; decide

theorem encFin : Statement .encFin := by unfold Statement; decide

theorem encRead (i : Nat) : Statement (.encRead i) := by
  simp [Statement, opcodeTable_fields, encode, covers_commandWord, opcodeRow]; decide

theorem encStat : Statement .encStat := by unfold Statement; decide

theorem decReset : Statement .decReset := by unfold Statement; decide

theorem decPut (b : Byte) : Statement (.decPut b) := by
  simp [Statement, opcodeTable_fields, encode, covers_commandWord, argOfByte_mask, opcodeRow]; decide

theorem decRead (i : Nat) : Statement (.decRead i) := by
  simp [Statement, opcodeTable_fields, encode, covers_commandWord, opcodeRow]; decide

theorem decStat : Statement .decStat := by unfold Statement; decide

end Sys2Proof.Laws.OwnRow
end

