-- ==== Sys2Proof/Laws/Response.lean ====
section
/-! SUPPORT. The laws of the response word: its layout as arithmetic, and its reading back. -/

namespace Sys2Proof.Machine

theorem ofBool_toNat (b : Bool) : (BitVec.ofBool b).toNat = b.toNat := by cases b <;> rfl

/-- The layout of `30_encoding.md` R74 as arithmetic. -/
theorem toWord_eq_ofNat (r : Response) :
    r.toWord = BitVec.ofNat 32 (r.status.code.toNat * 2 ^ 28 + r.cons.toNat * 2 ^ 27 + r.dstate.code.toNat * 2 ^ 25
      + r.mode.toNat * 2 ^ 24 + r.value.toNat) := by
  apply BitVec.eq_of_toNat_eq
  have hs := r.status.code.isLt
  have hd := r.dstate.code.isLt
  have hv := r.value.isLt
  have hc : r.cons.toNat < 2 := Bool.toNat_lt r.cons
  have hm : r.mode.toNat < 2 := Bool.toNat_lt r.mode
  have e : ∀ {n k : Nat} (x : BitVec n) (y : BitVec k), (x ++ y).toNat = x.toNat * 2 ^ k + y.toNat := by
    intro n k x y
    rw [BitVec.toNat_append, ← Nat.shiftLeft_add_eq_or_of_lt y.isLt, Nat.shiftLeft_eq]
  unfold Response.toWord
  rw [e, e, e, e, ofBool_toNat, ofBool_toNat, BitVec.toNat_ofNat]
  omega

theorem ofCode_code (st : Status) : Status.ofCode st.code = some st := by cases st <;> rfl

theorem code_ofCode {c : BitVec 4} {st : Status} (h : Status.ofCode c = some st) : st.code = c := by
  revert c; cases st <;> decide

theorem dstate_ofCode_code (d : DState) : DState.ofCode d.code = some d := by cases d <;> rfl

theorem dstate_code_ofCode {c : BitVec 2} {d : DState} (h : DState.ofCode c = some d) : d.code = c := by
  revert c; cases d <;> decide

/-- The word as a number, with the bounds of its fields: what the field lemmas below divide. -/
theorem toWord_toNat (r : Response) :
    r.toWord.toNat = r.status.code.toNat * 2 ^ 28 + r.cons.toNat * 2 ^ 27 + r.dstate.code.toNat * 2 ^ 25
      + r.mode.toNat * 2 ^ 24 + r.value.toNat ∧
    r.status.code.toNat < 2 ^ 4 ∧ r.cons.toNat < 2 ∧ r.dstate.code.toNat < 2 ^ 2 ∧ r.mode.toNat < 2 ∧
    r.value.toNat < 2 ^ 24 := by
  have hs := r.status.code.isLt
  have hd := r.dstate.code.isLt
  have hv := r.value.isLt
  have hc : r.cons.toNat < 2 := Bool.toNat_lt r.cons
  have hm : r.mode.toNat < 2 := Bool.toNat_lt r.mode
  refine ⟨?_, hs, hc, hd, hm, hv⟩
  rw [toWord_eq_ofNat, BitVec.toNat_ofNat]
  omega

theorem toWord_status (r : Response) : r.toWord.extractLsb' 28 4 = r.status.code := by
  obtain ⟨e, hs, hc, hd, hm, hv⟩ := toWord_toNat r
  apply BitVec.eq_of_toNat_eq
  rw [BitVec.extractLsb'_toNat, e, Nat.shiftRight_eq_div_pow]
  omega

theorem toWord_dstate (r : Response) : r.toWord.extractLsb' 25 2 = r.dstate.code := by
  obtain ⟨e, hs, hc, hd, hm, hv⟩ := toWord_toNat r
  apply BitVec.eq_of_toNat_eq
  rw [BitVec.extractLsb'_toNat, e, Nat.shiftRight_eq_div_pow]
  omega

theorem toWord_value (r : Response) : r.toWord.extractLsb' 0 24 = r.value := by
  obtain ⟨e, hs, hc, hd, hm, hv⟩ := toWord_toNat r
  apply BitVec.eq_of_toNat_eq
  rw [BitVec.extractLsb'_toNat, e, Nat.shiftRight_eq_div_pow]
  omega

theorem eq_of_toNat_mod {n : Nat} {b : Bool} (h : n % 2 = b.toNat) : decide (n % 2 = 1) = b := by
  cases b <;> simp_all

theorem toWord_cons (r : Response) : r.toWord.getLsbD 27 = r.cons := by
  obtain ⟨e, hs, hc, hd, hm, hv⟩ := toWord_toNat r
  rw [BitVec.getLsbD, e, Nat.testBit_eq_decide_div_mod_eq]
  exact eq_of_toNat_mod (by omega)

theorem toWord_mode (r : Response) : r.toWord.getLsbD 24 = r.mode := by
  obtain ⟨e, hs, hc, hd, hm, hv⟩ := toWord_toNat r
  rw [BitVec.getLsbD, e, Nat.testBit_eq_decide_div_mod_eq]
  exact eq_of_toNat_mod (by omega)

/-- A response with a status and a value, as `replyWord` writes it out. -/
theorem of_toWord {st : Status} {v : Nat} (hv : v < 2 ^ 24) :
    (Response.of st v).toWord = replyWord st.code.toNat 0 0 0 v := by
  have e : (BitVec.ofNat 24 v).toNat = v := by rw [BitVec.toNat_ofNat]; omega
  rw [toWord_eq_ofNat]; simp only [Response.of, e]; rfl

/-- The same of a consumed byte's response. -/
theorem consumed_toWord {st : Status} {v : Nat} (hv : v < 2 ^ 24) :
    (Response.consumed st v).toWord = replyWord st.code.toNat 1 0 0 v := by
  have e : (BitVec.ofNat 24 v).toNat = v := by rw [BitVec.toNat_ofNat]; omega
  rw [toWord_eq_ofNat]; simp only [Response.consumed, e]; rfl

end Sys2Proof.Machine
end

