-- ==== Sys2Proof/Laws/Step.lean ====
section
/-! SUPPORT. What each command can do, one lemma per command: if it answers a next state, then one of these cases holds.
Provers cite these instead of unfolding a meaning. -/

namespace Sys2Proof.Machine

theorem respond_next {r : Response} {s t : State} (h : respond r s = .next t) : t = answer r s := by
  cases h; rfl

theorem raise_next {r : Response} {s t : State} (h : raise r s = .next t) : t = answer r s := respond_next h

theorem execEncReset_next {s t : State} (h : execEncReset s = .next t) : t = answer (.of .ok 1) (encFullReset s) :=
  respond_next h

/-- `ENC.PUT` (`41_encoder.md` R102): no room and no change, or the wire form appended and the accumulator updated. -/
theorem execEncPut_next {b : Byte} {s t : State} (h : execEncPut b s = .next t) :
    (encCap s.cfg - 1 < s.ecur + (wireForm b).length ∧ t = answer (.of .noRoom s.ecur) s) ∨
    (s.ecur + (wireForm b).length ≤ encCap s.cfg - 1 ∧
      t = answer (.of .ok (s.ecur + (wireForm b).length)) (encAccumulate b { s with
        ebuf := s.ebuf.writeSeq s.ecur (wireForm b), ecur := s.ecur + (wireForm b).length })) := by
  unfold execEncPut at h
  rcases encAppend_cases (b := b) (s := s) rfl with ⟨he, hc⟩ | ⟨he, hc⟩
  · rw [he] at h; exact .inl ⟨hc, raise_next h⟩
  · rw [he] at h; exact .inr ⟨hc, respond_next h⟩

/-- `ENC.FIN` (`41_encoder.md` R103): a prefix of the trailer lands and nothing more, or all of it and END. -/
theorem execEncFin_next {s t : State} (h : execEncFin s = .next t) :
    (∃ xs, (appended xs s).ecur ≤ max s.ecur (encCap s.cfg) ∧
      (xs = [] ∨ s.ecur + (xs.flatMap wireForm).length ≤ encCap s.cfg - 1) ∧
      t = answer (.of .noRoom (appended xs s).ecur) (appended xs s)) ∨
    (∃ xs, (xs = [] ∨ s.ecur + (xs.flatMap wireForm).length ≤ encCap s.cfg - 1) ∧
      (appended xs s).ecur + 1 ≤ encCap s.cfg ∧
      t = answer (.of .frame ((appended xs s).ecur + 1)) { appended xs s with
        ebuf := (appended xs s).ebuf.write (appended xs s).ecur endByte, ecur := (appended xs s).ecur + 1 }) := by
  have key : ∃ xs ok, encTrailer s = (appended xs s, ok) ∧
      (xs = [] ∨ s.ecur + (xs.flatMap wireForm).length ≤ encCap s.cfg - 1) := by
    unfold encTrailer
    split
    · rcases encAppendAll_cases (beBytes (crcFinal s.eacc)) s with ⟨e, hx⟩ | ⟨xs, b, ys, -, e, hx, -⟩
      · exact ⟨_, _, e, hx⟩
      · exact ⟨_, _, e, hx⟩
    · exact ⟨[], true, by rw [appended_nil], .inl rfl⟩
  obtain ⟨xs, ok, e, hx⟩ := key
  have hle : (appended xs s).ecur ≤ max s.ecur (encCap s.cfg) := by
    rcases hx with rfl | hx
    · rw [appended_nil]; omega
    · show s.ecur + _ ≤ _; omega
  unfold execEncFin at h
  rw [e] at h
  cases ok with
  | false => exact .inl ⟨xs, hle, hx, raise_next h⟩
  | true =>
    simp only at h
    split at h
    · exact .inl ⟨xs, hle, hx, raise_next h⟩
    · rename_i hc
      exact .inr ⟨xs, hx, by simpa [appended] using hc, respond_next h⟩

/-- `ENC.READ` (`41_encoder.md` R104) changes nothing but the response log. -/
theorem execEncRead_next {i : Nat} {s t : State} (h : execEncRead i s = .next t) :
    (s.ecur ≤ i ∧ t = answer (.of .badIndex 0) s) ∨
    (i < s.ecur ∧ ∃ v, memRead s .ebuf i = .ok v ∧ t = answer (.of .ok v.toNat) s) := by
  unfold execEncRead inWindow at h
  split at h
  · rename_i hi
    split at h
    · rename_i v hv; exact .inr ⟨by simpa using hi, v, hv, respond_next h⟩
    · cases h
  · rename_i hi; exact .inl ⟨by simpa using hi, raise_next h⟩

theorem execEncStat_next {s t : State} (h : execEncStat s = .next t) :
    t = answer { Response.of .ok s.ecur with mode := modeBit s.cfg.encMode } s := respond_next h

theorem execDecReset_next {s t : State} (h : execDecReset s = .next t) : t = answer (.of .ok 0) (decFullReset s) :=
  respond_next h

theorem storeOrExhausted_next {v : Byte} {s t : State} (h : storeOrExhausted v s = .next t) :
    (decCap s.cfg ≤ s.dcur ∧ t = answer (.of .exhausted s.dcur) s) ∨
    (s.dcur < decCap s.cfg ∧ t = answer (.consumed .ok (s.dcur + 1)) { s with
      dbuf := s.dbuf.write s.dcur v, dcur := s.dcur + 1, dstate := .accepting }) := by
  unfold storeOrExhausted at h
  by_cases hc : s.dcur < decCap s.cfg
  · rw [decStore_some hc] at h; exact .inr ⟨hc, respond_next h⟩
  · rw [decStore_none (by omega)] at h; exact .inl ⟨by omega, raise_next h⟩

theorem cellAcceptingEnd_next {s t : State} (h : cellAcceptingEnd s = .next t) :
    (∃ len, validate s = .ok (some len) ∧ t = answer (.consumed .frame len) s) ∨
    (validate s = .ok none ∧ t = answer (.consumed .integrity 0) (decFullReset s)) := by
  unfold cellAcceptingEnd at h
  split at h
  · cases h
  · rename_i len hv; exact .inl ⟨len, hv, respond_next h⟩
  · rename_i hv; exact .inr ⟨hv, raise_next h⟩

/-- Every way `DEC.PUT` can end (`42_decoder.md` R133 to R140). -/
inductive DecPutCase (b : Byte) (s : State) : State → Prop where
  | begun : s.dstate = .waitingForStart → b = startByte →
      DecPutCase b s (answer (.consumed .ok 0) { s with dstate := .accepting })
  | discarded : s.dstate = .waitingForStart → b ≠ startByte → DecPutCase b s (answer (.consumed .ok 0) s)
  | restarted : s.dstate ≠ .waitingForStart → b = startByte →
      DecPutCase b s (answer (.consumed .ok 0) (decRestart s))
  | completed (len : Nat) : s.dstate = .accepting → b = endByte → validate s = .ok (some len) →
      DecPutCase b s (answer (.consumed .frame len) s)
  | failed : s.dstate = .accepting → b = endByte → validate s = .ok none →
      DecPutCase b s (answer (.consumed .integrity 0) (decFullReset s))
  | escape : s.dstate = .accepting → b = escByte →
      DecPutCase b s (answer (.consumed .ok s.dcur) { s with dstate := .escaped })
  | corrupt : s.dstate = .escaped → b = endByte ∨ b = escByte →
      DecPutCase b s (answer (.consumed .corrupt 0) (decFullReset s))
  | exhausted : s.dstate ≠ .waitingForStart → isSentinel b = false → decCap s.cfg ≤ s.dcur →
      DecPutCase b s (answer (.of .exhausted s.dcur) s)
  | stored (v : Byte) : (s.dstate = .accepting ∧ v = b ∨ s.dstate = .escaped ∧ v = ~~~b) → isSentinel b = false →
      s.dcur < decCap s.cfg →
      DecPutCase b s (answer (.consumed .ok (s.dcur + 1)) { s with
        dbuf := s.dbuf.write s.dcur v, dcur := s.dcur + 1, dstate := .accepting })

theorem execDecPut_next {b : Byte} {s t : State} (h : execDecPut b s = .next t) : DecPutCase b s t := by
  unfold execDecPut at h
  split at h
  · rename_i _ _ hs
    unfold cellWaiting at h
    split at h
    · rename_i hb; rw [respond_next h]; exact .begun hs hb
    · rename_i hb; rw [respond_next h]; exact .discarded hs hb
  · rename_i hs hc; rw [respond_next h]; exact .restarted (by simp [hs]) (classify_eq_start.mp hc)
  · rename_i hs hc
    rcases cellAcceptingEnd_next h with ⟨len, hv, rfl⟩ | ⟨hv, rfl⟩
    · exact .completed len hs (classify_eq_fin.mp hc) hv
    · exact .failed hs (classify_eq_fin.mp hc) hv
  · rename_i hs hc; rw [respond_next h]; exact .escape hs (classify_eq_esc.mp hc)
  · rename_i hs hc
    rcases storeOrExhausted_next h with ⟨hd, rfl⟩ | ⟨hd, rfl⟩
    · exact .exhausted (by simp [hs]) (classify_eq_other.mp hc) hd
    · exact .stored b (.inl ⟨hs, rfl⟩) (classify_eq_other.mp hc) hd
  · rename_i hs hc; rw [respond_next h]; exact .restarted (by simp [hs]) (classify_eq_start.mp hc)
  · rename_i hs hc; rw [raise_next h]; exact .corrupt hs (.inl (classify_eq_fin.mp hc))
  · rename_i hs hc; rw [raise_next h]; exact .corrupt hs (.inr (classify_eq_esc.mp hc))
  · rename_i hs hc
    rcases storeOrExhausted_next h with ⟨hd, rfl⟩ | ⟨hd, rfl⟩
    · exact .exhausted (by simp [hs]) (classify_eq_other.mp hc) hd
    · exact .stored (~~~b) (.inr ⟨hs, rfl⟩) (classify_eq_other.mp hc) hd

theorem execDecRead_next {i : Nat} {s t : State} (h : execDecRead i s = .next t) :
    (s.dcur ≤ i ∧ t = answer (.of .badIndex 0) s) ∨
    (i < s.dcur ∧ ∃ v, memRead s .dbuf i = .ok v ∧ t = answer (.of .ok v.toNat) s) := by
  unfold execDecRead inWindow at h
  split at h
  · rename_i hi
    split at h
    · rename_i v hv; exact .inr ⟨by simpa using hi, v, hv, respond_next h⟩
    · cases h
  · rename_i hi; exact .inl ⟨by simpa using hi, raise_next h⟩

theorem execDecStat_next {s t : State} (h : execDecStat s = .next t) :
    t = answer { Response.of .ok s.dcur with dstate := s.dstate, mode := modeBit s.cfg.decMode } s := respond_next h

/-! ### What a command answers, case by case -/

theorem execEncPut_full {b : Byte} {s : State} (h : encCap s.cfg - 1 < s.ecur + (wireForm b).length) :
    execEncPut b s = .next (answer (.of .noRoom s.ecur) s) := by
  unfold execEncPut; rw [encAppend_none h]; rfl

theorem execEncPut_fits {b : Byte} {s : State} (h : s.ecur + (wireForm b).length ≤ encCap s.cfg - 1) :
    execEncPut b s = .next (answer (.of .ok (s.ecur + (wireForm b).length)) (encAccumulate b { s with
      ebuf := s.ebuf.writeSeq s.ecur (wireForm b), ecur := s.ecur + (wireForm b).length })) := by
  unfold execEncPut; rw [encAppend_some h]; simp [respond]

theorem execEncFin_stops {s t : State} (h : encTrailer s = (t, false)) :
    execEncFin s = .next (answer (.of .noRoom t.ecur) t) := by
  unfold execEncFin; rw [h]; rfl

theorem execEncFin_full {s t : State} (h : encTrailer s = (t, true)) (hc : encCap t.cfg < t.ecur + 1) :
    execEncFin s = .next (answer (.of .noRoom t.ecur) t) := by
  unfold execEncFin; rw [h]; exact if_pos hc

theorem execEncFin_frame {s t : State} (h : encTrailer s = (t, true)) (hc : t.ecur + 1 ≤ encCap t.cfg) :
    execEncFin s = .next (answer (.of .frame (t.ecur + 1)) { t with
      ebuf := t.ebuf.write t.ecur endByte, ecur := t.ecur + 1 }) := by
  unfold execEncFin; rw [h]; exact if_neg (by omega)

theorem execEncRead_below {i : Nat} {s : State} {v : Byte} (hi : i < s.ecur) (hv : memRead s .ebuf i = .ok v) :
    execEncRead i s = .next (answer (.of .ok v.toNat) s) := by
  unfold execEncRead inWindow; simp only [hi, decide_true, if_true, hv]; rfl

theorem execEncRead_above {i : Nat} {s : State} (hi : s.ecur ≤ i) :
    execEncRead i s = .next (answer (.of .badIndex 0) s) := by
  unfold execEncRead inWindow; simp only [show ¬ i < s.ecur by omega, decide_false]; rfl

theorem execDecRead_below {i : Nat} {s : State} {v : Byte} (hi : i < s.dcur) (hv : memRead s .dbuf i = .ok v) :
    execDecRead i s = .next (answer (.of .ok v.toNat) s) := by
  unfold execDecRead inWindow; simp only [hi, decide_true, if_true, hv]; rfl

theorem execDecRead_above {i : Nat} {s : State} (hi : s.dcur ≤ i) :
    execDecRead i s = .next (answer (.of .badIndex 0) s) := by
  unfold execDecRead inWindow; simp only [show ¬ i < s.dcur by omega, decide_false]; rfl

theorem storeOrExhausted_room {v : Byte} {s : State} (h : s.dcur < decCap s.cfg) :
    storeOrExhausted v s = .next (answer (.consumed .ok (s.dcur + 1)) { s with
      dbuf := s.dbuf.write s.dcur v, dcur := s.dcur + 1, dstate := .accepting }) := by
  unfold storeOrExhausted; rw [decStore_some h]; rfl

theorem storeOrExhausted_full {v : Byte} {s : State} (h : decCap s.cfg ≤ s.dcur) :
    storeOrExhausted v s = .next (answer (.of .exhausted s.dcur) s) := by
  unfold storeOrExhausted; rw [decStore_none h]; rfl

theorem cellAcceptingEnd_valid {s : State} {len : Nat} (h : validate s = .ok (some len)) :
    cellAcceptingEnd s = .next (answer (.consumed .frame len) s) := by
  unfold cellAcceptingEnd; rw [h]; rfl

theorem cellAcceptingEnd_invalid {s : State} (h : validate s = .ok none) :
    cellAcceptingEnd s = .next (answer (.consumed .integrity 0) (decFullReset s)) := by
  unfold cellAcceptingEnd; rw [h]; rfl

/-- The transition function where its state and its byte's class are known (`42_decoder.md` R132). -/
theorem execDecPut_waiting {b : Byte} {s : State} (hs : s.dstate = .waitingForStart) :
    execDecPut b s = cellWaiting b s := by unfold execDecPut; rw [hs]

theorem execDecPut_accepting {b : Byte} {s : State} (hs : s.dstate = .accepting) :
    execDecPut b s = match classify b with
      | .start => cellAcceptingStart s
      | .fin => cellAcceptingEnd s
      | .esc => cellAcceptingEsc s
      | .other => cellAcceptingOther b s := by
  unfold execDecPut; rw [hs]; cases classify b <;> rfl

theorem execDecPut_escaped {b : Byte} {s : State} (hs : s.dstate = .escaped) :
    execDecPut b s = match classify b with
      | .start => cellEscapedStart s
      | .fin => cellEscapedSentinel s
      | .esc => cellEscapedSentinel s
      | .other => cellEscapedOther b s := by
  unfold execDecPut; rw [hs]; cases classify b <;> rfl

/-! ### The step -/

theorem step_idle {s : State} (h : s.inputs = []) : step s = .next s := by simp [step, h]

theorem step_input {s : State} {inp : HostInput} {rest : List HostInput} (h : s.inputs = inp :: rest) :
    step s = accept inp { s with inputs := rest } := by simp [step, h]

theorem transact_legal {w : Word} {i : Instr} (h : decode w = .ok i) (s : State) : transact w s = exec i s := by
  simp [transact, h]

theorem transact_illegal {w : Word} {e : Illegal} (h : decode w = .error e) (s : State) :
    transact w s = .next (answer (.of .illegal 0) s) := by
  simp [transact, h, illegalCommand, raise, respond]

end Sys2Proof.Machine
end

