-- ==== Sys2Proof/Tests/Slice0.lean ====
section
/-! SUPPORT. Our own tests. Every expected word is the spec's (`95_test_vectors.md`, or a rule's own example, named at each
test); then a witness for the hypotheses of every obligation that has some. -/

namespace Sys2Proof.Tests

-- One theorem at a time: many `decide` at once take one thread, and one thread's stack, each.
set_option Elab.async false

open Sys2Proof.Machine

/-! ### What a test looks at -/

/-- The state a command left, if it went on. -/
def after (r : Result) : Option State :=
  match r with
  | .next t => some t
  | .fault _ => none
  | .refused _ => none

/-- The last response word. -/
def reply (r : Result) : Option Word := (after r).bind (fun t => t.responses.getLast?)

/-- The decoder's cursor and state. -/
def decView (r : Result) : Option (Nat × DState) := (after r).map (fun t => (t.dcur, t.dstate))

/-- A block whose encoder has written these bytes. -/
def encAt (m : Mode) (maxp : Nat) (bytes : List Byte) (acc : Word) : State :=
  { State.resetOf ⟨maxp, m, m⟩ with ebuf := Memory.writeSeq [] 0 bytes, ecur := bytes.length, eacc := acc }

/-- A block whose decoder has collected these bytes. -/
def decAt (m : Mode) (maxp : Nat) (bytes : List Byte) (d : DState) : State :=
  { State.resetOf ⟨maxp, m, m⟩ with dbuf := Memory.writeSeq [] 0 bytes, dcur := bytes.length, dstate := d }

/-- Eight bytes 0x41: a full `DBUF` at `MAXP = 4`. -/
def eight : List Byte := List.replicate 8 0x41#8

/-! ### WellFormed: one ill-formed term for each check, refused -/

theorem test_wf_encRead_too_large : (Instr.encRead (2 ^ 24)).wf = false := by decide
theorem test_wf_decRead_too_large : (Instr.decRead (2 ^ 24)).wf = false := by decide
theorem test_wf_index_at_bound : (Instr.encRead (2 ^ 24 - 1)).wf = true ∧ (Instr.decRead (2 ^ 24 - 1)).wf = true := by decide
/-- R6: a build with a larger `MAXP` is no build of the spec. -/
theorem test_wf_build_too_large : Config.wf ⟨8388603, .withCrc, .withCrc⟩ = false := by decide
theorem test_wf_build_at_bounds :
    Config.wf ⟨8388602, .withCrc, .withCrc⟩ = true ∧ Config.wf ⟨0, .withoutCrc, .withCrc⟩ = true := by decide
theorem test_wf_memory_repeats : ¬Memory.wf [(3, 0x41#8), (3, 0x42#8)] := by decide
theorem test_wf_memory_falls : ¬Memory.wf [(4, 0x41#8), (3, 0x42#8)] := by decide

/-! ### Decoding: the words of R70 to R72, written out bit by bit (`OP` in 31:24, `ARG` in 23:0) -/

theorem test_decode_encReset : decode 0b00010000_000000000000000000000000#32 = .ok .encReset := by rfl
theorem test_decode_encPut : decode 0b00010001_0000000000000000_00101010#32 = .ok (.encPut 0x2A#8) := by rfl
theorem test_decode_encFin : decode 0b00010010_000000000000000000000000#32 = .ok .encFin := by rfl
theorem test_decode_encRead : decode 0b00010011_111111111111111111111111#32 = .ok (.encRead 16777215) := by rfl
theorem test_decode_encStat : decode 0b00010100_000000000000000000000000#32 = .ok .encStat := by rfl
theorem test_decode_decReset : decode 0b00100000_000000000000000000000000#32 = .ok .decReset := by rfl
theorem test_decode_decPut : decode 0b00100001_0000000000000000_11100100#32 = .ok (.decPut 0xE4#8) := by rfl
theorem test_decode_decRead : decode 0b00100010_000000000000000000000011#32 = .ok (.decRead 3) := by rfl
theorem test_decode_decStat : decode 0b00100011_000000000000000000000000#32 = .ok .decStat := by rfl

/-- Section 2.8: the illegal words, each refused by name. -/
theorem test_decode_reserved_opcodes :
    decode 0x00000000#32 = .error (.reservedOpcode 0x00#8) ∧ decode 0x0F000000#32 = .error (.reservedOpcode 0x0F#8) ∧
    decode 0x15000000#32 = .error (.reservedOpcode 0x15#8) ∧ decode 0x1F000000#32 = .error (.reservedOpcode 0x1F#8) ∧
    decode 0x24000000#32 = .error (.reservedOpcode 0x24#8) ∧ decode 0xFF000000#32 = .error (.reservedOpcode 0xFF#8) :=
  ⟨rfl, rfl, rfl, rfl, rfl, rfl⟩

theorem test_decode_reserved_arguments :
    decode 0x10000001#32 = .error (.reservedArgBits 0x10#8 0x000001#24) ∧
    decode 0x11000100#32 = .error (.reservedArgBits 0x11#8 0x000100#24) ∧
    decode 0x12000010#32 = .error (.reservedArgBits 0x12#8 0x000010#24) ∧
    decode 0x14000001#32 = .error (.reservedArgBits 0x14#8 0x000001#24) ∧
    decode 0x20000001#32 = .error (.reservedArgBits 0x20#8 0x000001#24) ∧
    decode 0x21000102#32 = .error (.reservedArgBits 0x21#8 0x000102#24) ∧
    decode 0x23800000#32 = .error (.reservedArgBits 0x23#8 0x800000#24) :=
  ⟨rfl, rfl, rfl, rfl, rfl, rfl, rfl⟩

/-- R77: the assembler's three examples, and a decimal and a commented line. -/
theorem test_assemble_examples :
    (assemble "ENC.PUT 0x2A".toList).map encode = some 0x1100002A#32 ∧
    (assemble "DEC.READ 3".toList).map encode = some 0x22000003#32 ∧
    (assemble "ENC.FIN ; finish".toList).map encode = some 0x12000000#32 ∧
    (assemble "ENC.READ 16777215".toList).map encode = some 0x13FFFFFF#32 := by decide
theorem test_assemble_refuses :
    assemble "ENC.PUT 0x100".toList = none ∧ assemble "enc.fin".toList = none ∧ assemble "ENC.PUT".toList = none ∧
    assemble "DEC.READ 16777216".toList = none := by decide

/-! ### CRC (`95_test_vectors.md` 2.2) -/

/-- V-C16. -/
theorem test_crc_steps :
    crcUpdate 0#32 0x00#8 = 0xD202EF8D#32 ∧ crcUpdate 0#32 0x2A#8 = 0x09B9265B#32 ∧ crcUpdate 0#32 0xFF#8 = 0xFF000000#32 ∧
    crcStep 0xFFFFFFFF#32 0x31#8 = 0x7C231048#32 := by decide +kernel
/-- V-C4, V-C12. -/
theorem test_crc_sequences :
    crc [0x02#8, 0x1B#8, 0x03#8] = 0xCCFA975C#32 ∧ crc [0x01#8, 0x02#8, 0x03#8, 0x04#8, 0x05#8, 0x06#8, 0x07#8, 0x08#8] =
      0x3FCA88C5#32 := by decide +kernel
/-- V-L1, the payload [05] in mode With: its trailer holds two sentinels. -/
theorem test_frame_escaped_trailer :
    frame [0x05#8] .withCrc = [0x02#8, 0x05#8, 0xA2#8, 0x68#8, 0x1B#8, 0xE4#8, 0x1B#8, 0xFD#8, 0x03#8] := by
  decide +kernel

/-! ### The commands, one step each -/

/-- R101's example: after `ENC.PUT 0x41`. -/
theorem test_encReset :
    execEncReset (encAt .withCrc 4 [0x02#8, 0x41#8] 0xD3D99E8B#32) = .next
      { encAt .withCrc 4 [0x02#8, 0x41#8] 0#32 with ecur := 1, responses := [0x00000001#32] } := by rfl
/-- R102's example: from reset, `ENC.PUT 0x1B` writes `[1B, E4]`; mode With updates the accumulator over the byte itself. -/
theorem test_encPut_escapes :
    (after (execEncPut 0x1B#8 (State.resetOf ⟨4, .withCrc, .withCrc⟩))).map (fun t => (t.ebuf, t.eacc, t.responses)) =
      some ([(0, 0x02#8), (1, 0x1B#8), (2, 0xE4#8)], crcUpdate 0#32 0x1B#8, [0x00000003#32]) := by rfl
/-- V-EN2, rows 8 and 9: at `ecur = 8` of 10 a sentinel does not fit, a plain byte does. -/
theorem test_encPut_room :
    reply (execEncPut 0x02#8 (encAt .withoutCrc 0 (0x02#8 :: List.replicate 7 0x41#8) 0#32)) = some 0x20000008#32 ∧
    reply (execEncPut 0x41#8 (encAt .withoutCrc 0 (0x02#8 :: List.replicate 7 0x41#8) 0#32)) = some 0x00000009#32 := by
  decide
/-- P1, row 3: the trailer of [00] is sent as `D2 1B FD EF 8D`. -/
theorem test_encFin_trailer :
    (after (execEncFin (encAt .withCrc 4 [0x02#8, 0x00#8] 0xD202EF8D#32))).map (fun t => (t.ebuf, t.responses)) =
      some ([(0, 0x02#8), (1, 0x00#8), (2, 0xD2#8), (3, 0x1B#8), (4, 0xFD#8), (5, 0xEF#8), (6, 0x8D#8), (7, 0x03#8)],
        [0x10000008#32]) := by rfl
/-- V-EN3, row 11: a second `ENC.FIN` at `ecur = ENC_CAP`. -/
theorem test_encFin_full :
    reply (execEncFin (encAt .withoutCrc 0 (0x02#8 :: List.replicate 8 0x41#8 ++ [0x03#8]) 0#32)) = some 0x2000000A#32 := by
  decide
/-- R104's example: `ENC.READ 1` and `ENC.READ 3` after `02 2A 03`. -/
theorem test_encRead :
    reply (execEncRead 1 (encAt .withoutCrc 4 [0x02#8, 0x2A#8, 0x03#8] 0#32)) = some 0x0000002A#32 ∧
    reply (execEncRead 3 (encAt .withoutCrc 4 [0x02#8, 0x2A#8, 0x03#8] 0#32)) = some 0xE0000000#32 := by decide
/-- R105's example and V-EN6. -/
theorem test_encStat :
    reply (execEncStat (State.resetOf ⟨4, .withCrc, .withoutCrc⟩)) = some 0x01000001#32 ∧
    reply (execEncStat (encAt .withoutCrc 4 [0x02#8, 0x41#8] 0#32)) = some 0x00000002#32 := by decide
/-- R131's example: `Escaped` with `dcur = 5`. -/
theorem test_decReset :
    reply (execDecReset (decAt .withCrc 4 (List.replicate 5 0x41#8) .escaped)) = some 0x00000000#32 ∧
    decView (execDecReset (decAt .withCrc 4 (List.replicate 5 0x41#8) .escaped)) = some (0, .waitingForStart) := by decide
/-- Section 2.4, the cells: state, response, state after. -/
theorem test_decPut_cells :
    ([(0x02#8, DState.waitingForStart, ([] : List Byte)), (0x1B#8, .waitingForStart, []),
      (0x02#8, .accepting, [0x41#8, 0x42#8]), (0x03#8, .accepting, [0x41#8, 0x42#8]), (0x1B#8, .accepting, [0x41#8, 0x42#8]),
      (0x43#8, .accepting, [0x41#8, 0x42#8]), (0x43#8, .accepting, eight), (0x1B#8, .accepting, eight),
      (0x02#8, .escaped, [0x41#8, 0x42#8]), (0x03#8, .escaped, [0x41#8, 0x42#8]), (0x1B#8, .escaped, [0x41#8, 0x42#8]),
      (0x00#8, .escaped, [0x41#8, 0x42#8]), (0xFD#8, .escaped, eight)].map
      (fun c => (reply (execDecPut c.1 (decAt .withoutCrc 4 c.2.2 c.2.1)),
        decView (execDecPut c.1 (decAt .withoutCrc 4 c.2.2 c.2.1))))) =
    [(some 0x08000000#32, some (0, .accepting)), (some 0x08000000#32, some (0, .waitingForStart)),
      (some 0x08000000#32, some (0, .accepting)), (some 0x18000002#32, some (2, .accepting)),
      (some 0x08000002#32, some (2, .escaped)), (some 0x08000003#32, some (3, .accepting)),
      (some 0x30000008#32, some (8, .accepting)), (some 0x08000008#32, some (8, .escaped)),
      (some 0x08000000#32, some (0, .accepting)), (some 0x48000000#32, some (0, .waitingForStart)),
      (some 0x48000000#32, some (0, .waitingForStart)), (some 0x08000003#32, some (3, .accepting)),
      (some 0x30000008#32, some (8, .escaped))] := by decide
/-- Section 2.5, mode With: a match, a trailer with one bit changed, and three bytes only. -/
theorem test_decPut_validation :
    reply (execDecPut 0x03#8 (decAt .withCrc 4 [0x2A#8, 0x09#8, 0xB9#8, 0x26#8, 0x5B#8] .accepting)) = some 0x18000001#32 ∧
    reply (execDecPut 0x03#8 (decAt .withCrc 4 [0x2A#8, 0x09#8, 0xB9#8, 0x26#8, 0x5A#8] .accepting)) = some 0x58000000#32 ∧
    reply (execDecPut 0x03#8 (decAt .withCrc 4 [0x00#8, 0x00#8, 0x00#8] .accepting)) = some 0x58000000#32 := by
  decide +kernel
/-- R143's example and its bound. -/
theorem test_decRead :
    reply (execDecRead 1 (decAt .withoutCrc 4 [0x41#8, 0x02#8] .accepting)) = some 0x00000002#32 ∧
    reply (execDecRead 2 (decAt .withoutCrc 4 [0x41#8, 0x02#8] .accepting)) = some 0xE0000000#32 := by decide
/-- R144's example and section 2.9, row 6. -/
theorem test_decStat :
    reply (execDecStat (decAt .withCrc 4 (List.replicate 5 0x41#8) .accepting)) = some 0x03000005#32 ∧
    reply (execDecStat (decAt .withCrc 4 [0x41#8, 0x42#8] .escaped)) = some 0x05000002#32 := by decide

/-! ### The step, as the first command after reset -/

theorem test_step_runs_first_command :
    reply (step (State.reset.withFetchWord 32 0x1100002A)) = some 0x00000002#32 ∧
    reply (step (State.reset.withFetchWord 32 0x23000000)) = some 0x01000000#32 ∧
    reply (step (State.reset.withFetchWord 32 0)) = some 0xF0000000#32 := by decide +kernel
/-- Section 2.6, row 3: the second ESC is consumed, and the feed stops there. -/
theorem test_decPutN_corrupt :
    (match decPutN [0x02#8, 0x41#8, 0x1B#8, 0x1B#8, 0x02#8] (State.resetOf ⟨4, .withoutCrc, .withoutCrc⟩) with
      | .next (_, r, n) => some (r.map Response.toWord, n)
      | .fault _ => none
      | .refused _ => none) = some (some 0x48000000#32, 4) := by decide
/-- V-EN7, the mode-Without row. -/
theorem test_encPutN_short :
    (match encPutN [0x02#8, 0x03#8, 0x1B#8, 0x02#8, 0x41#8, 0x41#8] (State.resetOf ⟨0, .withoutCrc, .withoutCrc⟩) with
      | .next (t, n) => some (t.ecur, t.responses.getLast?, n)
      | .fault _ => none
      | .refused _ => none) = some (9, some 0x20000009#32, 4) := by decide

/-! ### Witnesses: a state and operands that meet the hypotheses of each obligation

One state serves most of them: `busy` is a block in the middle of both of its works. -/

/-- Mode With, `MAXP = 4`: `02 2A` in `EBUF`, `41 42` in `DBUF`, the decoder after an ESC. -/
def busy : State :=
  { State.resetOf ⟨4, .withCrc, .withCrc⟩ with
    ebuf := [(0, 0x02#8), (1, 0x2A#8)], ecur := 2, eacc := 0x09B9265B#32
    dbuf := [(0, 0x41#8), (1, 0x42#8)], dcur := 2, dstate := .escaped }

theorem witness_busy_inv : busy.Inv :=
  ⟨by decide, by decide, by decide, by decide, by decide, by decide, by decide, by decide, by decide, by decide, by decide,
    by decide, by decide⟩

/-- The same with bytes left over above both cursors. -/
def stale : State :=
  { busy with
    ebuf := [(0, 0x02#8), (1, 0x2A#8), (2, 0x55#8)], dbuf := [(0, 0x41#8), (1, 0x42#8), (7, 0x55#8)] }

theorem witness_stale_inv : stale.Inv :=
  ⟨by decide, by decide, by decide, by decide, by decide, by decide, by decide, by decide, by decide, by decide, by decide,
    by decide, by decide⟩

/-- `HiddenBytesAreNeverObserved`: two different states the host cannot tell apart. -/
theorem witness_HiddenBytes : SameToHost busy stale ∧ busy.ebuf ≠ stale.ebuf ∧ busy.dbuf ≠ stale.dbuf :=
  ⟨⟨rfl, rfl, rfl, rfl, rfl, rfl, rfl, by decide, by decide⟩, by decide, by decide⟩

/-- `DecodeOfEncode`, `AssemblerReadsListings`: well-formed commands at the operands' bounds. -/
theorem witness_wellFormed :
    ∀ i ∈ [Instr.encReset, .encPut 0xFF#8, .encFin, .encRead (2 ^ 24 - 1), .encStat, .decReset, .decPut 0#8, .decRead 0,
      .decStat], i.wf = true := by decide

/-- `EncodeOfDecode`, `OneRowPerLegalWord`, `ReservedWordsAnswerIllegal`, `StepRunsDecodedCommand`: a word that decodes and
one that does not, each as the next input. -/
theorem witness_words :
    decode 0x13FFFFFF#32 = .ok (.encRead 16777215) ∧ (∀ i, decode 0x10000001#32 ≠ .ok i) ∧
    { busy with inputs := [.command 0x10000001#32] }.inputs = .command 0x10000001#32 :: [] :=
  ⟨rfl, fun _ => by simp [show decode 0x10000001#32 = .error (.reservedArgBits 0x10#8 1#24) from rfl], rfl⟩

/-- `ReservedWordsAnswerIllegal`, the bounds of its ranges: the opcodes next to a valid one on either side are reserved. -/
theorem witness_reserved_bounds :
    [0x0F000000#32, 0x15000000#32, 0x1F000000#32, 0x24000000#32, 0xFF000000#32, 0x12000001#32, 0x21000100#32].all
      (fun w => (decode w).toOption.isNone) = true ∧
    [0x10000000#32, 0x14000000#32, 0x20000000#32, 0x23000000#32, 0x210000FF#32].all
      (fun w => (decode w).toOption.isSome) = true := by decide

/-- `ResponseWordLayout`: a word that reads back, and words of both kinds that do not. -/
theorem witness_ResponseWordLayout :
    (Response.ofWord 0x58000000#32).isSome ∧ Response.ofWord 0x60000000#32 = none ∧ Response.ofWord 0xD0000000#32 = none ∧
    Response.ofWord 0x06000000#32 = none := by decide

/-- `ResetMeetsInvariant` and every statement over builds: builds at both bounds. -/
theorem witness_builds : Config.wf ⟨0, .withCrc, .withoutCrc⟩ = true ∧ Config.wf ⟨8388602, .withoutCrc, .withCrc⟩ = true := by
  decide

/-- `RunIsFoldOfCommands`: words, one of them illegal, that are all answered. -/
theorem witness_RunIsFold :
    (after (transactAll [0x1100002A#32, 0x00000000#32, 0x12000000#32] busy)).isSome := by decide +kernel

/-- `HardwareResetState`, `BlockWaitsForTheHost`. -/
theorem witness_inputs : { busy with inputs := [.reset] }.inputs = .reset :: [] ∧ busy.inputs = [] := ⟨rfl, rfl⟩

/-- `CommandsWriteOnlyTheirState`, `ResponsesAreTheCommandsOwn`, `EncAndDecCommandsCommute`: every command goes on from
`busy`, and each clause's premise is met. -/
theorem witness_commands_go_on :
    (∀ i ∈ [Instr.encReset, .encPut 0x02#8, .encFin, .encRead 1, .encStat, .decReset, .decPut 0xFD#8, .decRead 1, .decStat],
      (after (exec i busy)).isSome) ∧
    writesEncoder .decReset = false ∧ writesDecoder .encFin = false ∧
    isEncCommand .encFin = true ∧ isEncCommand .decReset = false ∧
    (after (exec (.encPut 0x02#8) (encAt .withoutCrc 0 [0x02#8] 0#32))).isSome := by decide +kernel

/-- `BuffersChangeOnlyAtTheCursor`: an ENC.PUT that fits and one that does not, an ENC.FIN, and a DEC.PUT of each kind. -/
theorem witness_BuffersChange :
    (after (exec (.encPut 0x02#8) (encAt .withoutCrc 0 (0x02#8 :: List.replicate 6 0x41#8) 0#32))).isSome ∧
    encCap ⟨0, .withoutCrc, .withoutCrc⟩ - 1 < 8 + (wireForm 0x02#8).length ∧
    (after (exec .encFin (encAt .withoutCrc 0 (0x02#8 :: List.replicate 8 0x41#8) 0#32))).isSome ∧
    (after (exec (.decPut 0x41#8) (decAt .withoutCrc 4 [] .accepting))).isSome ∧
    classify 0x03#8 ≠ .other ∧ decCap ⟨4, .withoutCrc, .withoutCrc⟩ ≤ (decAt .withoutCrc 4 eight .accepting).dcur := by
  decide

/-- `EncPutResult`, `EncStatResult`, `EncPutNCountsAppendedBytes`, `EncFinResult` in mode Without: the cursor one and two below the
capacity and at it. -/
theorem witness_encoder_cursors :
    ∀ n ∈ [7, 8, 9], (encAt .withoutCrc 0 (0x02#8 :: List.replicate n 0x41#8) 0#32).cfg.wf = true ∧
      (encAt .withoutCrc 0 (0x02#8 :: List.replicate n 0x41#8) 0#32).cfg.encMode = .withoutCrc ∧
      (encAt .withoutCrc 0 (0x02#8 :: List.replicate n 0x41#8) 0#32).ecur ≤
        encCap (encAt .withoutCrc 0 (0x02#8 :: List.replicate n 0x41#8) 0#32).cfg := by decide

/-- `EncFinResult`, mode With: a trailer that fits with nothing to spare. -/
theorem witness_EncFin_fits :
    let s := encAt .withCrc 0 (0x02#8 :: List.replicate 4 0x41#8) 0x79B71C0A#32
    s.cfg.wf = true ∧ s.cfg.encMode = .withCrc ∧
    s.ecur + (wireForm 0x79#8 ++ wireForm 0xB7#8 ++ wireForm 0x1C#8 ++ wireForm 0x0A#8).length = encCap s.cfg - 1 := by
  decide

/-- `EncFinResult`, mode With, a trailer that does not fit: the first trailer byte with the cursor at the capacity, and each later one in turn. -/
theorem witness_EncFin_stops :
    ∀ c ∈ [(0, 10), (0, 9), (1, 8), (2, 7), (3, 6)],
      let s := { encAt .withCrc 0 [0x02#8] 0x79B71C0A#32 with ecur := c.2 }
      let bytes := [0x79#8, 0xB7#8, 0x1C#8, 0x0A#8]
      s.cfg.wf = true ∧ s.cfg.encMode = .withCrc ∧ s.ecur ≤ encCap s.cfg ∧ c.1 < 4 ∧
      beBytes s.eacc = bytes ∧
      (c.1 = 0 ∨ s.ecur + ((bytes.take c.1).flatMap wireForm).length ≤ encCap s.cfg - 1) ∧
      s.ecur + ((bytes.take (c.1 + 1)).flatMap wireForm).length > encCap s.cfg - 1 := by decide

/-- `EncReadResult`, `DecReadResult` (with `witness_busy_inv`): the last readable index and the first that is not. -/
theorem witness_read_bounds : 1 < busy.ecur ∧ busy.ecur ≤ 2 ∧ 1 < busy.dcur ∧ busy.dcur ≤ 2 := by decide

/-- `DecPutWhileWaiting`, `DecPutStartRestarts`, `DecPutCorruption`, `DecStatResult`: each decoder state. -/
theorem witness_decoder_states :
    (decAt .withCrc 0 [] .waitingForStart).dstate = .waitingForStart ∧
    (decAt .withCrc 0 [0x41#8] .accepting).dstate = .accepting ∧ busy.dstate = .escaped ∧ busy.cfg.wf = true ∧
    busy.dcur ≤ decCap busy.cfg := by decide

/-- `DecPutEscape`, `DecPutStoresPlainByte`, `DecPutStoresEscapedByte`, `DecPutEndResult` in mode Without: the last free place and a
full buffer. -/
theorem witness_decoder_cursors :
    ∀ d ∈ [DState.accepting, .escaped], ∀ n ∈ [7, 8],
      let s := decAt .withoutCrc 4 (List.replicate n 0x41#8) d
      s.cfg.wf = true ∧ s.cfg.decMode = .withoutCrc ∧ s.dstate = d ∧ s.dcur ≤ decCap s.cfg ∧
      (0x41#8 ≠ 0x02#8 ∧ 0x41#8 ≠ 0x03#8 ∧ 0x41#8 ≠ 0x1B#8) := by decide

/-- `DecPutEndResult`, mode With: three collected bytes; exactly four, an empty payload; and one payload byte. -/
theorem witness_DecPutEnd :
    (decAt .withCrc 4 [0#8, 0#8, 0#8] .accepting).dcur < 4 ∧
    (decAt .withCrc 4 [0#8, 0#8, 0#8, 0#8] .accepting).dbuf.holds ([] ++ [0#8, 0#8, 0#8, 0#8]) ∧
    (decAt .withCrc 4 [0x2A#8, 0x09#8, 0xB9#8, 0x26#8, 0x5B#8] .accepting).dbuf.holds
      ([0x2A#8] ++ [0x09#8, 0xB9#8, 0x26#8, 0x5B#8]) ∧
    (decAt .withCrc 4 [0x2A#8, 0x09#8, 0xB9#8, 0x26#8, 0x5B#8] .accepting).dcur = [0x2A#8].length + 4 := by
  refine ⟨by decide, ?_, ?_, by decide⟩ <;> unfold Memory.holds <;> decide

/-- `DecoderFailuresAreAsymmetric`: a DEC.PUT that ends in each of the five statuses. -/
theorem witness_DecoderFailures :
    reply (exec (.decPut 0x43#8) (decAt .withoutCrc 4 eight .accepting)) = some 0x30000008#32 ∧
    reply (exec (.decPut 0x03#8) (decAt .withCrc 4 [] .accepting)) = some 0x58000000#32 ∧
    reply (exec (.decPut 0x1B#8) busy) = some 0x48000000#32 ∧
    reply (exec (.decPut 0x03#8) (decAt .withoutCrc 4 [0x41#8] .accepting)) = some 0x18000001#32 ∧
    reply (exec (.decPut 0x02#8) busy) = some 0x08000000#32 := by decide

/-- `RepeatedEndRepeatsTheFrame`. -/
theorem witness_RepeatedEnd :
    exec (.decPut 0x03#8) (decAt .withoutCrc 4 [0x41#8] .accepting) = .next
      { decAt .withoutCrc 4 [0x41#8] .accepting with responses := [replyWord 0x1 1 0 0 1] } := by rfl

/-- `CrcTellsOneByteApart`, `FrameLengthBounds`. -/
theorem witness_bytes : (0x2A#8 : Byte) ≠ 0x2B#8 ∧ [0x41#8, 0x41#8, 0x41#8, 0x41#8].length = Config.sample.maxp := by decide

/-- `EncoderBuildsTheFrame`, `DecoderReturnsThePayload`, `EncodeThenDecodeReturnsThePayload`, `MismatchedModes`: the longest
payloads of each mode (with `witness_busy_inv` for the state). -/
theorem witness_payloads :
    [0x02#8, 0x03#8, 0x1B#8, 0x41#8].length = maxPayload busy.cfg busy.cfg.encMode ∧ busy.cfg.encMode = busy.cfg.decMode ∧
    eight.length = maxPayload (decAt .withoutCrc 4 [] .accepting).cfg .withoutCrc ∧
    (busy.dstate = .waitingForStart → busy.dcur = 0) ∧ busy.cfg.decMode = .withCrc ∧ eight.length ≤ decCap busy.cfg ∧
    (decAt .withoutCrc 4 [] .waitingForStart).cfg.decMode = .withoutCrc ∧
    [0x02#8, 0x03#8, 0x1B#8, 0x41#8].length = (decAt .withoutCrc 4 [] .waitingForStart).cfg.maxp := by decide

/-- `ExtraStartChangesNothing`: commands that go on after a START. -/
theorem witness_ExtraStart :
    (after (execAll [.decPut 0x02#8, .decPut 0x41#8, .encPut 0x41#8, .decPut 0x03#8] busy)).isSome ∧
    (busy.dstate = .waitingForStart → busy.dcur = 0) := by decide +kernel

/-- `OverflowBoundary`, at the smallest build. -/
theorem witness_OverflowBoundary :
    let s := decAt .withCrc 0 [] .accepting
    s.cfg.wf = true ∧ s.dstate = .accepting ∧ s.dcur = 0 ∧
    [0x41#8, 0x42#8, 0x43#8, 0x44#8].length = decCap s.cfg ∧
    (∀ b ∈ [0x41#8, 0x42#8, 0x43#8, 0x44#8], classify b = .other) ∧ classify 0xFD#8 = .other := by decide

/-- `OneByteErrorIsRejected`: the collected payload and trailer of [2A], with a payload byte changed and with a trailer byte
changed. -/
theorem witness_OneByteError :
    [0x2A#8] ++ beBytes (crc [0x2A#8]) = [0x2A#8, 0x09#8, 0xB9#8, 0x26#8, 0x5B#8] ∧
    (decAt .withCrc 4 [0x2B#8, 0x09#8, 0xB9#8, 0x26#8, 0x5B#8] .accepting).dbuf.holds
      ([0x2A#8, 0x09#8, 0xB9#8, 0x26#8, 0x5B#8].set 0 0x2B#8) ∧
    (decAt .withCrc 4 [0x2A#8, 0x09#8, 0xB9#8, 0x26#8, 0x5A#8] .accepting).dbuf.holds
      ([0x2A#8, 0x09#8, 0xB9#8, 0x26#8, 0x5B#8].set 4 0x5A#8) ∧
    (decAt .withCrc 4 [0x2A#8, 0x09#8, 0xB9#8, 0x26#8, 0x5A#8] .accepting).dcur = [0x2A#8].length + 4 := by
  refine ⟨by decide +kernel, ?_, ?_, by decide⟩ <;> unfold Memory.holds <;> decide

end Sys2Proof.Tests
end

section
/-! The capacities of a build and the builds of the spec (`00_scope.md` R5, R6). -/

namespace Sys2Proof.Machine

theorem encCap_eq (c : Config) : encCap c = 2 * c.maxp + 10 := by
  unfold encCap crcLen; omega

theorem decCap_eq (c : Config) : decCap c = c.maxp + 4 := rfl

theorem config_wf_iff_maxp_le (c : Config) : c.wf = true ↔ c.maxp ≤ 8388602 := decide_eq_true_iff

/-- R6's step from the width of `VALUE` to the bound on `MAXP`: `2 * 8388602 + 10` is below `2^24 - 1` by one, and
`ENC_CAP` is even. -/
theorem encCap_le_iff_maxp_le (c : Config) : encCap c ≤ 2 ^ 24 - 1 ↔ c.maxp ≤ 8388602 := by
  rw [encCap_eq]; omega

/-- Settles O8: the two capacity formulas, and R6's bound read on `MAXP` (as `Config.wf` does) and on `ENC_CAP`. -/
theorem capacitiesOfABuild : Obligations.CapacitiesOfABuild := fun c =>
  ⟨encCap_eq c, decCap_eq c, (config_wf_iff_maxp_le c).trans (encCap_le_iff_maxp_le c).symm, config_wf_iff_maxp_le c⟩

end Sys2Proof.Machine
end

section
/-! The state of a build after the hardware reset (`10_state.md` R34). -/

namespace Sys2Proof.Machine

/-- Settles O9: R34's reset values, each read off `State.resetOf`. -/
theorem resetValues : Obligations.ResetValues := fun c =>
  ⟨rfl, resetOf_ecur c, resetOf_eacc c, resetOf_dcur c, resetOf_dstate c, resetOf_cfg c⟩

/-- A build's reset state is what the hardware reset makes of any state of that build with empty logs, itself for one. -/
theorem hardwareReset_resetOf (c : Config) : hardwareReset (State.resetOf c) = State.resetOf c := rfl

theorem inv_resetOf {c : Config} (h : c.wf) : (State.resetOf c).Inv :=
  hardwareReset_resetOf c ▸ inv_hardwareReset h

/-- Settles O10: the hardware reset makes the invariant hold in every build of the spec, and the sample build is one. -/
theorem resetMeetsInvariant : Obligations.ResetMeetsInvariant :=
  ⟨fun _ => inv_resetOf, inv_resetOf (by decide)⟩

end Sys2Proof.Machine
end

section
/-! Two states a host cannot tell apart stay so: what each shared operation, each command and each host input makes of
them (`10_state.md` R31, R34, `20_memory.md` R41). From a state that meets the invariant this says, too, that the block
goes on: take the state twice. -/

namespace Sys2Proof.Machine

theorem SameToHost.refl (s : State) : SameToHost s s :=
  ⟨rfl, rfl, rfl, rfl, rfl, rfl, rfl, fun _ _ => rfl, fun _ _ => rfl⟩

/-! ### The shared operations -/

section
variable {s t : State} (h : SameToHost s t)
include h

theorem SameToHost.answer {r r' : Response} (hr : r = r') : SameToHost (answer r s) (answer r' t) :=
  { h with responses := by simp [h.responses, hr] }

theorem SameToHost.withInputs (l : List HostInput) : SameToHost { s with inputs := l } { t with inputs := l } :=
  { h with inputs := rfl }

theorem SameToHost.withResponses (l : List Word) : SameToHost { s with responses := l } { t with responses := l } :=
  { h with responses := rfl }

theorem SameToHost.withDstate (d : DState) : SameToHost { s with dstate := d } { t with dstate := d } :=
  { h with dstate := rfl }

/-- Bytes appended at the encoder's cursor become visible, and they are the same bytes. -/
theorem SameToHost.written (bs : List Byte) :
    SameToHost { s with ebuf := s.ebuf.writeSeq s.ecur bs, ecur := s.ecur + bs.length }
      { t with ebuf := t.ebuf.writeSeq t.ecur bs, ecur := t.ecur + bs.length } :=
  { h with
    ecur := congrArg (· + bs.length) h.ecur
    ebuf := fun i hi => by
      have hi : i < s.ecur + bs.length := hi
      simp only [read_writeSeq, ← h.ecur]
      split
      · rfl
      · exact h.ebuf i (by omega) }

/-- A byte stored at the decoder's cursor becomes visible, and it is the same byte. -/
theorem SameToHost.stored (v : Byte) :
    SameToHost { s with dbuf := s.dbuf.write s.dcur v, dcur := s.dcur + 1, dstate := .accepting }
      { t with dbuf := t.dbuf.write t.dcur v, dcur := t.dcur + 1, dstate := .accepting } :=
  { h with
    dcur := congrArg (· + 1) h.dcur
    dstate := rfl
    dbuf := fun i hi => by
      have hi : i < s.dcur + 1 := hi
      simp only [← h.dcur]
      by_cases hc : i = s.dcur
      · simp only [hc, read_write_self]
      · simp only [read_write_of_ne _ _ hc]
        exact h.dbuf i (by omega) }

theorem SameToHost.encAccumulate (b : Byte) : SameToHost (encAccumulate b s) (encAccumulate b t) := by
  cases hm : s.cfg.encMode with
  | withCrc =>
    rw [encAccumulate_with b s hm, encAccumulate_with b t (h.cfg ▸ hm)]
    exact { h with eacc := congrArg (crcUpdate · b) h.eacc }
  | withoutCrc => rwa [encAccumulate_without b s hm, encAccumulate_without b t (h.cfg ▸ hm)]

theorem SameToHost.encFullReset : SameToHost (encFullReset s) (encFullReset t) :=
  { h with
    ecur := rfl
    eacc := rfl
    ebuf := fun i hi => by
      obtain rfl : i = 0 := by simpa using hi
      simp [read_write_self] }

theorem SameToHost.decFullReset : SameToHost (decFullReset s) (decFullReset t) :=
  { h with dcur := rfl, dstate := rfl, dbuf := fun _ hi => absurd hi (Nat.not_lt_zero _) }

theorem SameToHost.decRestart : SameToHost (decRestart s) (decRestart t) :=
  { h with dcur := rfl, dstate := rfl, dbuf := fun _ hi => absurd hi (Nat.not_lt_zero _) }

theorem SameToHost.hardwareReset : SameToHost (hardwareReset s) (hardwareReset t) :=
  { h with ecur := rfl, eacc := rfl, dcur := rfl, dstate := rfl, ebuf := fun _ _ => rfl, dbuf := fun _ _ => rfl }

/-- The room tests look at the build and the cursor, so they stop both states at the same byte. -/
theorem SameToHost.encAppendAll (bs : List Byte) :
    SameToHost (encAppendAll bs s).1 (encAppendAll bs t).1 ∧ (encAppendAll bs s).2 = (encAppendAll bs t).2 := by
  induction bs generalizing s t with
  | nil => exact ⟨h, rfl⟩
  | cons b bs ih =>
    unfold Machine.encAppendAll
    by_cases hc : s.ecur + (wireForm b).length ≤ encCap s.cfg - 1
    · rw [encAppend_some hc, encAppend_some (s := t) (h.cfg ▸ h.ecur ▸ hc)]
      exact ih (h.written _)
    · have hc : encCap s.cfg - 1 < s.ecur + (wireForm b).length := by omega
      rw [encAppend_none hc, encAppend_none (s := t) (h.cfg ▸ h.ecur ▸ hc)]
      exact ⟨h, rfl⟩

theorem SameToHost.encTrailer :
    SameToHost (encTrailer s).1 (encTrailer t).1 ∧ (encTrailer s).2 = (encTrailer t).2 := by
  unfold Machine.encTrailer
  rw [← h.cfg, ← h.eacc]
  split
  · exact h.encAppendAll _
  · exact ⟨h, rfl⟩

/-- A byte below the encoder's cursor is the same in both, and both can read it. -/
theorem SameToHost.memRead_ebuf (hs : s.Inv) {i : Nat} (hi : i < s.ecur) :
    ∃ v, memRead s .ebuf i = .ok v ∧ memRead t .ebuf i = .ok v := by
  obtain ⟨v, hv, hr⟩ := Inv_read_ebuf hs hi
  have hcap : i < encCap t.cfg := h.cfg ▸ Nat.lt_of_lt_of_le hi hs.ecurBound
  exact ⟨v, hr, memRead_ok hcap ((h.ebuf i hi).symm.trans hv)⟩

theorem SameToHost.memRead_dbuf (hs : s.Inv) {i : Nat} (hi : i < s.dcur) :
    ∃ v, memRead s .dbuf i = .ok v ∧ memRead t .dbuf i = .ok v := by
  obtain ⟨v, hv, hr⟩ := Inv_read_dbuf hs hi
  have hcap : i < decCap t.cfg := h.cfg ▸ Nat.lt_of_lt_of_le hi hs.dcurBound
  exact ⟨v, hr, memRead_ok hcap ((h.dbuf i hi).symm.trans hv)⟩

/-- Validation reads only below the decoder's cursor (`42_decoder.md` R141). -/
theorem SameToHost.validate (hs : s.Inv) : validate s = validate t := by
  cases hm : s.cfg.decMode with
  | withoutCrc => rw [validate_without hm, validate_without (h.cfg ▸ hm), h.dcur]
  | withCrc =>
    by_cases hd : s.dcur < crcLen
    · rw [validate_short hm hd, validate_short (h.cfg ▸ hm) (h.dcur ▸ hd)]
    · obtain ⟨bytes, hl, hb⟩ := exists_holds hs.dbufFilled
      have hbt : t.dbuf.holds bytes := fun i hi => (h.dbuf i (hl ▸ hi)).symm.trans (hb i hi)
      have hd : crcLen ≤ s.dcur := by omega
      rw [validate_with hm hb hl hs.dcurBound hd,
        validate_with (h.cfg ▸ hm) hbt (hl.trans h.dcur) (h.cfg ▸ h.dcur ▸ hs.dcurBound) (h.dcur ▸ hd), h.dcur]

end

/-! ### The commands and the step -/

/-- A command caught by the reset whose effect is complete: the reset meets the state the command left, and the response
is not delivered (`70_reset_and_hazards.md` R231). -/
theorem caughtByReset_completed {w : Word} {s t : State} (h : transact w s = .next t) :
    caughtByReset w true s = .next (hardwareReset { t with responses := s.responses }) := by
  simp [caughtByReset, h]

/-- Both sides go on, to states the host cannot tell apart. -/
def SameResult (r r' : Result) : Prop := ∃ s t, r = .next s ∧ r' = .next t ∧ SameToHost s t

section
variable {s t : State} (h : SameToHost s t)
include h

/-- Two commands that end with the same response (`00_scope.md` R11). -/
theorem SameToHost.ended {r r' : Response} (hr : r = r') :
    SameResult (.next (Machine.answer r s)) (.next (Machine.answer r' t)) :=
  ⟨_, _, rfl, rfl, h.answer hr⟩

theorem execEncPut_same (b : Byte) : SameResult (execEncPut b s) (execEncPut b t) := by
  by_cases hc : s.ecur + (wireForm b).length ≤ encCap s.cfg - 1
  · rw [execEncPut_fits hc, execEncPut_fits (s := t) (h.cfg ▸ h.ecur ▸ hc)]
    exact ((h.written _).encAccumulate b).ended (by rw [h.ecur])
  · have hc : encCap s.cfg - 1 < s.ecur + (wireForm b).length := by omega
    rw [execEncPut_full hc, execEncPut_full (s := t) (h.cfg ▸ h.ecur ▸ hc)]
    exact h.ended (by rw [h.ecur])

theorem execEncFin_same : SameResult (execEncFin s) (execEncFin t) := by
  obtain ⟨hu, hok⟩ := h.encTrailer
  rcases hs : encTrailer s with ⟨u, ok⟩
  rcases ht : encTrailer t with ⟨v, ok'⟩
  rw [hs, ht] at hu hok
  obtain rfl : ok = ok' := hok
  replace hu : SameToHost u v := hu
  cases ok with
  | false =>
    rw [execEncFin_stops hs, execEncFin_stops ht]
    exact hu.ended (by rw [hu.ecur])
  | true =>
    by_cases hc : u.ecur + 1 ≤ encCap u.cfg
    · rw [execEncFin_frame hs hc, execEncFin_frame ht (hu.cfg ▸ hu.ecur ▸ hc)]
      exact (hu.written [endByte]).ended (by rw [hu.ecur])
    · have hc : encCap u.cfg < u.ecur + 1 := by omega
      rw [execEncFin_full hs hc, execEncFin_full ht (hu.cfg ▸ hu.ecur ▸ hc)]
      exact hu.ended (by rw [hu.ecur])

theorem execEncRead_same (hs : s.Inv) (i : Nat) : SameResult (execEncRead i s) (execEncRead i t) := by
  by_cases hi : i < s.ecur
  · obtain ⟨v, hv, hv'⟩ := h.memRead_ebuf hs hi
    rw [execEncRead_below hi hv, execEncRead_below (h.ecur ▸ hi) hv']
    exact h.ended rfl
  · have hi : s.ecur ≤ i := by omega
    rw [execEncRead_above hi, execEncRead_above (h.ecur ▸ hi)]
    exact h.ended rfl

theorem execDecRead_same (hs : s.Inv) (i : Nat) : SameResult (execDecRead i s) (execDecRead i t) := by
  by_cases hi : i < s.dcur
  · obtain ⟨v, hv, hv'⟩ := h.memRead_dbuf hs hi
    rw [execDecRead_below hi hv, execDecRead_below (h.dcur ▸ hi) hv']
    exact h.ended rfl
  · have hi : s.dcur ≤ i := by omega
    rw [execDecRead_above hi, execDecRead_above (h.dcur ▸ hi)]
    exact h.ended rfl

theorem cellWaiting_same (b : Byte) : SameResult (cellWaiting b s) (cellWaiting b t) := by
  unfold cellWaiting
  split
  · exact (h.withDstate .accepting).ended rfl
  · exact h.ended rfl

theorem cellAcceptingEnd_same (hs : s.Inv) : SameResult (cellAcceptingEnd s) (cellAcceptingEnd t) := by
  have hv := h.validate hs
  obtain ⟨verdict, he⟩ := Inv_validate hs
  cases verdict with
  | some len =>
    rw [cellAcceptingEnd_valid he, cellAcceptingEnd_valid (hv ▸ he)]
    exact h.ended rfl
  | none =>
    rw [cellAcceptingEnd_invalid he, cellAcceptingEnd_invalid (hv ▸ he)]
    exact h.decFullReset.ended rfl

theorem storeOrExhausted_same (v : Byte) : SameResult (storeOrExhausted v s) (storeOrExhausted v t) := by
  by_cases hc : s.dcur < decCap s.cfg
  · rw [storeOrExhausted_room hc, storeOrExhausted_room (s := t) (h.cfg ▸ h.dcur ▸ hc)]
    exact (h.stored v).ended (by rw [h.dcur])
  · have hc : decCap s.cfg ≤ s.dcur := by omega
    rw [storeOrExhausted_full hc, storeOrExhausted_full (s := t) (h.cfg ▸ h.dcur ▸ hc)]
    exact h.ended (by rw [h.dcur])

/-- Both decoders stand in the same state, so the byte meets the same cell of R132's table. -/
theorem execDecPut_same (hs : s.Inv) (b : Byte) : SameResult (execDecPut b s) (execDecPut b t) := by
  cases hd : s.dstate with
  | waitingForStart =>
    rw [execDecPut_waiting hd, execDecPut_waiting (h.dstate ▸ hd)]
    exact cellWaiting_same h b
  | accepting =>
    rw [execDecPut_accepting hd, execDecPut_accepting (h.dstate ▸ hd)]
    cases classify b with
    | start => exact h.decRestart.ended rfl
    | fin => exact cellAcceptingEnd_same h hs
    | esc => exact (h.withDstate .escaped).ended (by rw [h.dcur])
    | other => exact storeOrExhausted_same h b
  | escaped =>
    rw [execDecPut_escaped hd, execDecPut_escaped (h.dstate ▸ hd)]
    cases classify b with
    | start => exact h.decRestart.ended rfl
    | fin => exact h.decFullReset.ended rfl
    | esc => exact h.decFullReset.ended rfl
    | other => exact storeOrExhausted_same h (~~~b)

theorem exec_same (hs : s.Inv) (i : Instr) : SameResult (exec i s) (exec i t) := by
  cases i with
  | encReset => exact h.encFullReset.ended rfl
  | encPut b => exact execEncPut_same h b
  | encFin => exact execEncFin_same h
  | encRead i => exact execEncRead_same h hs i
  | encStat => exact h.ended (by rw [h.ecur, h.cfg])
  | decReset => exact h.decFullReset.ended rfl
  | decPut b => exact execDecPut_same h hs b
  | decRead i => exact execDecRead_same h hs i
  | decStat => exact h.ended (by rw [h.dcur, h.dstate, h.cfg])

theorem transact_same (hs : s.Inv) (w : Word) : SameResult (transact w s) (transact w t) := by
  cases hw : decode w with
  | ok i =>
    rw [transact_legal hw, transact_legal hw]
    exact exec_same h hs i
  | error e =>
    rw [transact_illegal hw, transact_illegal hw]
    exact h.ended rfl

theorem accept_same (hs : s.Inv) (inp : HostInput) : SameResult (accept inp s) (accept inp t) := by
  have hreset : SameResult (.next (hardwareReset s)) (.next (hardwareReset t)) := ⟨_, _, rfl, rfl, h.hardwareReset⟩
  cases inp with
  | command w => exact transact_same h hs w
  | reset => exact hreset
  | resetDuring w completed =>
    cases completed with
    | false => exact hreset
    | true =>
      obtain ⟨u, v, hu, hv, huv⟩ := transact_same h hs w
      refine ⟨_, _, caughtByReset_completed hu, caughtByReset_completed hv, ?_⟩
      rw [← h.responses]
      exact (huv.withResponses _).hardwareReset

theorem step_same (hs : s.Inv) : SameResult (step s) (step t) := by
  cases hin : s.inputs with
  | nil => exact ⟨s, t, step_idle hin, step_idle (h.inputs ▸ hin), h⟩
  | cons inp rest =>
    rw [step_input hin, step_input (s := t) (h.inputs ▸ hin)]
    exact accept_same (h.withInputs rest) (inv_inputs hs rest) inp

end

/-- Settles O21: the two steps go the same way, because no command reads at or above a cursor. One of the two states meeting
the invariant is enough. -/
theorem hiddenBytesAreNeverObserved : Obligations.HiddenBytesAreNeverObserved :=
  fun _ _ h hs _ => step_same h hs

end Sys2Proof.Machine
end

section
/-! The invariant along a step: each command keeps it, as the lemma that says how the command can end shows
(`10_state.md` R20 to R28). -/

namespace Sys2Proof.Machine

section
variable {s t : State} (h : s.Inv)
include h

theorem inv_execEncPut {b : Byte} (e : execEncPut b s = .next t) : t.Inv := by
  rcases execEncPut_next e with ⟨-, rfl⟩ | ⟨hc, rfl⟩
  · exact inv_answer h _
  · exact inv_answer (inv_encAccumulate (inv_written h _ (by omega)) b) _

theorem inv_execEncFin (e : execEncFin s = .next t) : t.Inv := by
  rcases execEncFin_next e with ⟨xs, -, hx, rfl⟩ | ⟨xs, hx, hc, rfl⟩
  · exact inv_answer (inv_appended h xs hx) _
  · exact inv_answer (inv_written (inv_appended h xs hx) [endByte] hc) _

theorem inv_execDecPut {b : Byte} (e : execDecPut b s = .next t) : t.Inv := by
  cases execDecPut_next e with
  | begun => exact inv_answer (inv_dstate h (by decide)) _
  | discarded => exact inv_answer h _
  | restarted => exact inv_answer (inv_decRestart h) _
  | completed => exact inv_answer h _
  | failed => exact inv_answer (inv_decFullReset h) _
  | escape => exact inv_answer (inv_dstate h (by decide)) _
  | corrupt => exact inv_answer (inv_decFullReset h) _
  | exhausted => exact inv_answer h _
  | stored v _ _ hroom => exact inv_answer (inv_decStore h (decStore_some hroom)) _

theorem inv_exec {i : Instr} (e : exec i s = .next t) : t.Inv := by
  cases i with
  | encReset => rw [execEncReset_next e]; exact inv_answer (inv_encFullReset h) _
  | encPut b => exact inv_execEncPut h e
  | encFin => exact inv_execEncFin h e
  | encRead i => rcases execEncRead_next e with ⟨-, rfl⟩ | ⟨-, v, -, rfl⟩ <;> exact inv_answer h _
  | encStat => rw [execEncStat_next e]; exact inv_answer h _
  | decReset => rw [execDecReset_next e]; exact inv_answer (inv_decFullReset h) _
  | decPut b => exact inv_execDecPut h e
  | decRead i => rcases execDecRead_next e with ⟨-, rfl⟩ | ⟨-, v, -, rfl⟩ <;> exact inv_answer h _
  | decStat => rw [execDecStat_next e]; exact inv_answer h _

theorem inv_transact {w : Word} (e : transact w s = .next t) : t.Inv := by
  cases hw : decode w with
  | ok i => exact inv_exec h (transact_legal hw s ▸ e)
  | error x =>
    rw [transact_illegal hw] at e
    cases e
    exact inv_answer h _

theorem inv_accept {inp : HostInput} (e : accept inp s = .next t) : t.Inv := by
  cases inp with
  | command w => exact inv_transact h e
  | reset => cases e; exact inv_hardwareReset h.build
  | resetDuring w completed =>
    cases completed with
    | false => cases e; exact inv_hardwareReset h.build
    | true =>
      obtain ⟨u, -, hu, -, -⟩ := transact_same (.refl s) h w
      have e' := (caughtByReset_completed hu).symm.trans e
      cases e'
      exact inv_hardwareReset (inv_transact h hu).build

theorem inv_step (e : step s = .next t) : t.Inv := by
  cases hin : s.inputs with
  | nil =>
    rw [step_idle hin] at e
    cases e
    exact h
  | cons inp rest =>
    rw [step_input hin] at e
    exact inv_accept (inv_inputs h rest) e

/-- A state of the invariant never stops: it is the same to the host as itself. -/
theorem step_goes_on : ∃ t, step s = .next t := by
  obtain ⟨t, -, ht, -, -⟩ := step_same (.refl s) h
  exact ⟨t, ht⟩

end

/-- Settles O11: the step goes on, and every way a command can end keeps the invariant. -/
theorem stepKeepsInvariant : Obligations.StepKeepsInvariant := by
  intro s h
  obtain ⟨t, ht⟩ := step_goes_on h
  exact ⟨t, ht, inv_step h ht⟩

end Sys2Proof.Machine
end

section
/-! Which state a command writes: R33's table as a frame (`10_state.md` R33), and what the commands that do write leave as
it was within the encoder's and the decoder's part. -/

namespace Sys2Proof.Machine

/-- From `s` to `t` the command wrote only what its row of R33's table marks `W`, and it answered once (R79). -/
structure WritesOnly (i : Instr) (s t : State) : Prop where
  cfg : t.cfg = s.cfg
  inputs : t.inputs = s.inputs
  answered : ∃ w, t.responses = s.responses ++ [w]
  encPart : writesEncoder i = false → t.encPart = s.encPart
  decPart : writesDecoder i = false → t.decPart = s.decPart

/-- A command that only answers, whatever it is. -/
theorem writesOnly_answer (i : Instr) (r : Response) (s : State) : WritesOnly i s (answer r s) :=
  ⟨rfl, rfl, ⟨_, rfl⟩, fun _ => rfl, fun _ => rfl⟩

/-- An encoder command of R33 that left the decoder's part alone. -/
theorem writesOnly_encoder {i : Instr} (hw : writesEncoder i = true) {r : Response} {s u : State} (hcfg : u.cfg = s.cfg)
    (hin : u.inputs = s.inputs) (hresp : u.responses = s.responses) (hdec : u.decPart = s.decPart) :
    WritesOnly i s (answer r u) :=
  ⟨hcfg, hin, ⟨_, congrArg (· ++ _) hresp⟩, fun hn => absurd (hw.symm.trans hn) (by decide), fun _ => hdec⟩

/-- A decoder command of R33 that left the encoder's part alone. -/
theorem writesOnly_decoder {i : Instr} (hw : writesDecoder i = true) {r : Response} {s u : State} (hcfg : u.cfg = s.cfg)
    (hin : u.inputs = s.inputs) (hresp : u.responses = s.responses) (henc : u.encPart = s.encPart) :
    WritesOnly i s (answer r u) :=
  ⟨hcfg, hin, ⟨_, congrArg (· ++ _) hresp⟩, fun _ => henc, fun hn => absurd (hw.symm.trans hn) (by decide)⟩

section
variable {s t : State}

theorem execEncPut_writesOnly {b : Byte} (e : execEncPut b s = .next t) : WritesOnly (.encPut b) s t := by
  rcases execEncPut_next e with ⟨-, rfl⟩ | ⟨-, rfl⟩
  · exact writesOnly_answer _ _ _
  · exact writesOnly_encoder rfl (by simp) (by simp) (by simp) (by simp [State.decPart])

theorem execEncFin_writesOnly (e : execEncFin s = .next t) : WritesOnly .encFin s t := by
  rcases execEncFin_next e with ⟨xs, -, -, rfl⟩ | ⟨xs, -, -, rfl⟩ <;> exact writesOnly_encoder rfl rfl rfl rfl rfl

theorem execDecPut_writesOnly {b : Byte} (e : execDecPut b s = .next t) : WritesOnly (.decPut b) s t := by
  cases execDecPut_next e <;> exact writesOnly_decoder rfl rfl rfl rfl rfl

theorem exec_writesOnly {i : Instr} (e : exec i s = .next t) : WritesOnly i s t := by
  cases i with
  | encReset => rw [execEncReset_next e]; exact writesOnly_encoder rfl rfl rfl rfl rfl
  | encPut b => exact execEncPut_writesOnly e
  | encFin => exact execEncFin_writesOnly e
  | encRead i => rcases execEncRead_next e with ⟨-, rfl⟩ | ⟨-, v, -, rfl⟩ <;> exact writesOnly_answer _ _ _
  | encStat => rw [execEncStat_next e]; exact writesOnly_answer _ _ _
  | decReset => rw [execDecReset_next e]; exact writesOnly_decoder rfl rfl rfl rfl rfl
  | decPut b => exact execDecPut_writesOnly e
  | decRead i => rcases execDecRead_next e with ⟨-, rfl⟩ | ⟨-, v, -, rfl⟩ <;> exact writesOnly_answer _ _ _
  | decStat => rw [execDecStat_next e]; exact writesOnly_answer _ _ _

/-- The trailer is appended without touching the accumulator (`10_state.md` R24). -/
theorem execEncFin_eacc (e : execEncFin s = .next t) : t.eacc = s.eacc := by
  rcases execEncFin_next e with ⟨xs, -, -, rfl⟩ | ⟨xs, -, -, rfl⟩ <;> rfl

theorem execEncPut_eacc_without {b : Byte} (hm : s.cfg.encMode = .withoutCrc) (e : execEncPut b s = .next t) :
    t.eacc = s.eacc := by
  rcases execEncPut_next e with ⟨-, rfl⟩ | ⟨-, rfl⟩
  · rfl
  · rw [encAccumulate_without]
    · rfl
    · exact hm

theorem execEncReset_read_of_ne {a : Nat} (ha : a ≠ 0) (e : execEncReset s = .next t) :
    t.ebuf.read a = s.ebuf.read a := by
  rw [execEncReset_next e, answer_ebuf, encFullReset_ebuf, read_write_of_ne _ _ ha]

theorem execDecReset_dbuf (e : execDecReset s = .next t) : t.dbuf = s.dbuf := by
  rw [execDecReset_next e]; rfl

end

/-- Settles O17: the frame of R33's table, then the four finer clauses, one command each. -/
theorem commandsWriteOnlyTheirState : Obligations.CommandsWriteOnlyTheirState := by
  intro i s t e
  obtain ⟨hcfg, hin, hans, henc, hdec⟩ := exec_writesOnly e
  refine ⟨hcfg, hin, hans, henc, hdec, ?_, ?_, ?_, ?_⟩
  · rintro rfl; exact execEncFin_eacc e
  · rintro ⟨b, rfl⟩ hm; exact execEncPut_eacc_without hm e
  · rintro rfl a ha; exact execEncReset_read_of_ne ha e
  · rintro rfl; exact execDecReset_dbuf e

end Sys2Proof.Machine
end

section
/-! Each command looks at the build and at its own side of the block, and writes that side and the response log alone
(`00_scope.md` R2, `20_memory.md` R51, R52). The encoder commands are taken first, then the decoder commands. -/

namespace Sys2Proof.Machine

/-- The state's build with these two parts, this input and these responses. -/
def State.withParts (s : State) (enc : Memory × Nat × Word) (dec : Memory × Nat × DState) (ins : List HostInput)
    (resps : List Word) : State where
  cfg := s.cfg
  ebuf := enc.1
  ecur := enc.2.1
  eacc := enc.2.2
  dbuf := dec.1
  dcur := dec.2.1
  dstate := dec.2.2
  inputs := ins
  responses := resps

/-- From the encoder's part of `s` the rule `f` ends one way, whatever the decoder's part, the input and the responses are:
in one fault, or with one response word and one new encoder's part. -/
def EncoderLocal (f : State → Result) (s : State) : Prop :=
  (∃ e, ∀ dec ins resps, f (s.withParts s.encPart dec ins resps) = .fault e) ∨
  ∃ r enc, ∀ dec ins resps,
    f (s.withParts s.encPart dec ins resps) = .next (answer r (s.withParts enc dec ins resps))

/-- The same for the decoder's part. -/
def DecoderLocal (f : State → Result) (s : State) : Prop :=
  (∃ e, ∀ enc ins resps, f (s.withParts enc s.decPart ins resps) = .fault e) ∨
  ∃ r dec, ∀ enc ins resps,
    f (s.withParts enc s.decPart ins resps) = .next (answer r (s.withParts enc dec ins resps))

/-! ### Shared operations -/

theorem memRead_congr {s t : State} {b : Buffer} (hcap : capacity s b = capacity t b) (hbuf : bufferOf s b = bufferOf t b)
    (i : Nat) : memRead s b i = memRead t b i := by
  unfold memRead
  rw [hcap, hbuf]

theorem readFirst_congr {s t : State} {b : Buffer} (hcap : capacity s b = capacity t b)
    (hbuf : bufferOf s b = bufferOf t b) (n : Nat) : readFirst s b n = readFirst t b n := by
  induction n with
  | zero => rfl
  | succ n ih => rw [readFirst, readFirst, ih, memRead_congr hcap hbuf]

theorem execEncRead_stops {i : Nat} {s : State} {e : Fault} (hi : i < s.ecur) (he : memRead s .ebuf i = .error e) :
    execEncRead i s = .fault e := by
  simp [execEncRead, inWindow, hi, he]

theorem execDecRead_stops {i : Nat} {s : State} {e : Fault} (hi : i < s.dcur) (he : memRead s .dbuf i = .error e) :
    execDecRead i s = .fault e := by
  simp [execDecRead, inWindow, hi, he]

theorem cellAcceptingEnd_stops {s : State} {e : Fault} (he : validate s = .error e) : cellAcceptingEnd s = .fault e := by
  simp [cellAcceptingEnd, he]

theorem encTrailer_with {s : State} (h : s.cfg.encMode = .withCrc) :
    encTrailer s = encAppendAll (beBytes (crcFinal s.eacc)) s := by
  simp [encTrailer, h]

theorem encTrailer_without {s : State} (h : s.cfg.encMode = .withoutCrc) : encTrailer s = (s, true) := by
  simp [encTrailer, h]

/-! ### The encoder commands -/

section
variable (s : State)

/-- The accumulator's update looks at the build's mode and at the accumulator (`10_state.md` R24). -/
theorem encAccumulate_local (b : Byte) (enc : Memory × Nat × Word) : ∃ enc', ∀ dec ins resps,
    encAccumulate b (s.withParts enc dec ins resps) = s.withParts enc' dec ins resps := by
  cases hm : s.cfg.encMode with
  | withCrc =>
    exact ⟨(enc.1, enc.2.1, crcUpdate enc.2.2 b),
      fun dec ins resps => encAccumulate_with b (s.withParts enc dec ins resps) hm⟩
  | withoutCrc => exact ⟨enc, fun dec ins resps => encAccumulate_without b (s.withParts enc dec ins resps) hm⟩

theorem execEncPut_local (b : Byte) : EncoderLocal (execEncPut b) s := by
  refine .inr ?_
  by_cases hc : s.ecur + (wireForm b).length ≤ encCap s.cfg - 1
  · obtain ⟨enc, hacc⟩ := encAccumulate_local s b
      (s.ebuf.writeSeq s.ecur (wireForm b), s.ecur + (wireForm b).length, s.eacc)
    refine ⟨.of .ok (s.ecur + (wireForm b).length), enc, fun dec ins resps => ?_⟩
    rw [← hacc]
    exact execEncPut_fits (s := s.withParts s.encPart dec ins resps) hc
  · have hc : encCap s.cfg - 1 < s.ecur + (wireForm b).length := by omega
    exact ⟨.of .noRoom s.ecur, s.encPart, fun _ _ _ => execEncPut_full hc⟩

/-- The room tests look at the build and the encoder's cursor, so the trailer stops at the same byte. -/
theorem encTrailer_local : ∃ enc ok, ∀ dec ins resps,
    encTrailer (s.withParts s.encPart dec ins resps) = (s.withParts enc dec ins resps, ok) := by
  cases hm : s.cfg.encMode with
  | withoutCrc => exact ⟨s.encPart, true, fun _ _ _ => encTrailer_without hm⟩
  | withCrc =>
    have htr (dec ins resps) := encTrailer_with (s := s.withParts s.encPart dec ins resps) hm
    rcases encAppendAll_cases (beBytes (crcFinal s.eacc)) s with ⟨-, hfit⟩ | ⟨xs, b, ys, hbs, -, hx, hb⟩
    · have hfit := hfit.resolve_left (by simp [beBytes])
      exact ⟨(appended (beBytes (crcFinal s.eacc)) s).encPart, true,
        fun _ _ _ => (htr _ _ _).trans (encAppendAll_fits hfit)⟩
    · have hstop (dec ins resps) :
          encAppendAll (beBytes (crcFinal s.eacc)) (s.withParts s.encPart dec ins resps) =
            (s.withParts (appended xs s).encPart dec ins resps, false) :=
        hbs ▸ encAppendAll_stops hx hb
      exact ⟨(appended xs s).encPart, false, fun _ _ _ => (htr _ _ _).trans (hstop _ _ _)⟩

theorem execEncFin_local : EncoderLocal execEncFin s := by
  obtain ⟨⟨m, c, a⟩, ok, htr⟩ := encTrailer_local s
  refine .inr ?_
  cases ok with
  | false => exact ⟨.of .noRoom c, (m, c, a), fun _ _ _ => execEncFin_stops (htr _ _ _)⟩
  | true =>
    by_cases hc : c + 1 ≤ encCap s.cfg
    · exact ⟨.of .frame (c + 1), (m.write c endByte, c + 1, a), fun _ _ _ => execEncFin_frame (htr _ _ _) hc⟩
    · have hc : encCap s.cfg < c + 1 := by omega
      exact ⟨.of .noRoom c, (m, c, a), fun _ _ _ => execEncFin_full (htr _ _ _) hc⟩

theorem execEncRead_local (i : Nat) : EncoderLocal (execEncRead i) s := by
  have hread (dec ins resps) : memRead (s.withParts s.encPart dec ins resps) .ebuf i = memRead s .ebuf i :=
    memRead_congr rfl rfl i
  by_cases hi : i < s.ecur
  · cases hv : memRead s .ebuf i with
    | error e => exact .inl ⟨e, fun _ _ _ => execEncRead_stops hi ((hread _ _ _).trans hv)⟩
    | ok v =>
      exact .inr ⟨.of .ok v.toNat, s.encPart, fun _ _ _ => execEncRead_below hi ((hread _ _ _).trans hv)⟩
  · exact .inr ⟨.of .badIndex 0, s.encPart, fun _ _ _ => execEncRead_above (Nat.le_of_not_lt hi)⟩

theorem exec_encoderLocal {i : Instr} (hi : isEncCommand i = true) : EncoderLocal (exec i) s := by
  cases i with
  | encReset => exact .inr ⟨.of .ok 1, (encFullReset s).encPart, fun _ _ _ => rfl⟩
  | encPut b => exact execEncPut_local s b
  | encFin => exact execEncFin_local s
  | encRead i => exact execEncRead_local s i
  | encStat => exact .inr ⟨{ Response.of .ok s.ecur with mode := modeBit s.cfg.encMode }, s.encPart, fun _ _ _ => rfl⟩
  | decReset | decPut | decRead | decStat => cases hi

/-! ### The decoder commands -/

theorem cellWaiting_local (b : Byte) : DecoderLocal (cellWaiting b) s := by
  by_cases hb : b = startByte
  · exact .inr ⟨.consumed .ok 0, (s.dbuf, s.dcur, .accepting), fun _ _ _ => if_pos hb⟩
  · exact .inr ⟨.consumed .ok 0, s.decPart, fun _ _ _ => if_neg hb⟩

theorem storeOrExhausted_local (v : Byte) : DecoderLocal (storeOrExhausted v) s := by
  refine .inr ?_
  by_cases hc : s.dcur < decCap s.cfg
  · exact ⟨.consumed .ok (s.dcur + 1), (s.dbuf.write s.dcur v, s.dcur + 1, .accepting),
      fun _ _ _ => storeOrExhausted_room hc⟩
  · exact ⟨.of .exhausted s.dcur, s.decPart, fun _ _ _ => storeOrExhausted_full (Nat.le_of_not_lt hc)⟩

theorem validate_withParts (enc : Memory × Nat × Word) (ins : List HostInput) (resps : List Word) :
    validate (s.withParts enc s.decPart ins resps) = validate s := by
  unfold validate
  rw [readFirst_congr (s := s.withParts enc s.decPart ins resps) (t := s) rfl rfl]
  rfl

theorem cellAcceptingEnd_local : DecoderLocal cellAcceptingEnd s := by
  have hval := validate_withParts s
  cases hv : validate s with
  | error e => exact .inl ⟨e, fun _ _ _ => cellAcceptingEnd_stops ((hval _ _ _).trans hv)⟩
  | ok verdict =>
    cases verdict with
    | some len =>
      exact .inr ⟨.consumed .frame len, s.decPart, fun _ _ _ => cellAcceptingEnd_valid ((hval _ _ _).trans hv)⟩
    | none =>
      exact .inr ⟨.consumed .integrity 0, (decFullReset s).decPart,
        fun _ _ _ => cellAcceptingEnd_invalid ((hval _ _ _).trans hv)⟩

/-- Where the rule `f` is `g` at every state with the decoder's part of `s`, it is enough to look at `g`. -/
theorem DecoderLocal.of_eq {f g : State → Result} {s : State} (hg : DecoderLocal g s)
    (heq : ∀ enc ins resps,
      f (s.withParts enc s.decPart ins resps) = g (s.withParts enc s.decPart ins resps)) : DecoderLocal f s :=
  hg.imp (fun ⟨e, he⟩ => ⟨e, fun _ _ _ => (heq _ _ _).trans (he _ _ _)⟩)
    (fun ⟨r, dec, hr⟩ => ⟨r, dec, fun _ _ _ => (heq _ _ _).trans (hr _ _ _)⟩)

/-- The state variant and the byte's class choose one cell of R132's table, and each cell is local. -/
theorem execDecPut_local (b : Byte) : DecoderLocal (execDecPut b) s := by
  have hstart : DecoderLocal cellAcceptingStart s := .inr ⟨.consumed .ok 0, (decRestart s).decPart, fun _ _ _ => rfl⟩
  have hcorrupt : DecoderLocal cellEscapedSentinel s :=
    .inr ⟨.consumed .corrupt 0, (decFullReset s).decPart, fun _ _ _ => rfl⟩
  have hesc : DecoderLocal cellAcceptingEsc s :=
    .inr ⟨.consumed .ok s.dcur, (s.dbuf, s.dcur, .escaped), fun _ _ _ => rfl⟩
  cases hs : s.dstate with
  | waitingForStart => exact (cellWaiting_local s b).of_eq fun _ _ _ => execDecPut_waiting hs
  | accepting =>
    have cell (enc ins resps) := execDecPut_accepting (b := b) (s := s.withParts enc s.decPart ins resps) hs
    generalize classify b = k at cell
    cases k with
    | start => exact hstart.of_eq cell
    | fin => exact (cellAcceptingEnd_local s).of_eq cell
    | esc => exact hesc.of_eq cell
    | other => exact (storeOrExhausted_local s b).of_eq cell
  | escaped =>
    have cell (enc ins resps) := execDecPut_escaped (b := b) (s := s.withParts enc s.decPart ins resps) hs
    generalize classify b = k at cell
    cases k with
    | start => exact hstart.of_eq cell
    | fin => exact hcorrupt.of_eq cell
    | esc => exact hcorrupt.of_eq cell
    | other => exact (storeOrExhausted_local s (~~~b)).of_eq cell

theorem execDecRead_local (i : Nat) : DecoderLocal (execDecRead i) s := by
  have hread (enc ins resps) : memRead (s.withParts enc s.decPart ins resps) .dbuf i = memRead s .dbuf i :=
    memRead_congr rfl rfl i
  by_cases hi : i < s.dcur
  · cases hv : memRead s .dbuf i with
    | error e => exact .inl ⟨e, fun _ _ _ => execDecRead_stops hi ((hread _ _ _).trans hv)⟩
    | ok v =>
      exact .inr ⟨.of .ok v.toNat, s.decPart, fun _ _ _ => execDecRead_below hi ((hread _ _ _).trans hv)⟩
  · exact .inr ⟨.of .badIndex 0, s.decPart, fun _ _ _ => execDecRead_above (Nat.le_of_not_lt hi)⟩

theorem exec_decoderLocal {i : Instr} (hi : isEncCommand i = false) : DecoderLocal (exec i) s := by
  cases i with
  | decReset => exact .inr ⟨.of .ok 0, (decFullReset s).decPart, fun _ _ _ => rfl⟩
  | decPut b => exact execDecPut_local s b
  | decRead i => exact execDecRead_local s i
  | decStat =>
    exact .inr ⟨{ Response.of .ok s.dcur with dstate := s.dstate, mode := modeBit s.cfg.decMode }, s.decPart,
      fun _ _ _ => rfl⟩
  | encReset | encPut | encFin | encRead | encStat => cases hi

end

end Sys2Proof.Machine
end

section
/-! Commands served one after another (`20_memory.md` R51), commands of the two sides past each other (R52), and the step
that waits (R49). -/

namespace Sys2Proof.Machine

/-- What a step answers, with the host's input replaced in the state it goes on to. -/
def withInputs (ins : List HostInput) : Result → Result
  | .next t => .next { t with inputs := ins }
  | .fault e => .fault e
  | .refused r => .refused r

/-- No command looks at what the host does next. -/
theorem exec_withInputs (i : Instr) (s : State) (ins : List HostInput) :
    exec i { s with inputs := ins } = withInputs ins (exec i s) := by
  cases hi : isEncCommand i with
  | true =>
    rcases exec_encoderLocal s hi with ⟨e, he⟩ | ⟨r, enc, hr⟩
    · exact (he s.decPart ins s.responses).trans (congrArg (withInputs ins) (he s.decPart s.inputs s.responses).symm)
    · exact (hr s.decPart ins s.responses).trans (congrArg (withInputs ins) (hr s.decPart s.inputs s.responses).symm)
  | false =>
    rcases exec_decoderLocal s hi with ⟨e, he⟩ | ⟨r, dec, hr⟩
    · exact (he s.encPart ins s.responses).trans (congrArg (withInputs ins) (he s.encPart s.inputs s.responses).symm)
    · exact (hr s.encPart ins s.responses).trans (congrArg (withInputs ins) (hr s.encPart s.inputs s.responses).symm)

theorem transact_withInputs (w : Word) (s : State) (ins : List HostInput) :
    transact w { s with inputs := ins } = withInputs ins (transact w s) := by
  cases hw : decode w with
  | ok i => rw [transact_legal hw, transact_legal hw, exec_withInputs]
  | error e => rw [transact_illegal hw, transact_illegal hw]; rfl

/-- A step on a queued command word serves it, and leaves the rest of the queue. -/
theorem step_command (w : Word) (s : State) (rest : List HostInput) :
    step { s with inputs := .command w :: rest } = withInputs rest (transact w s) :=
  transact_withInputs w s rest

theorem run_eq_transactAll (ws : List Word) (s : State) (rest : List HostInput) :
    core.run ws.length { s with inputs := ws.map .command ++ rest } = transactAll ws { s with inputs := rest } := by
  induction ws generalizing s with
  | nil => rfl
  | cons w ws ih =>
    have hstep : core.step { s with inputs := (w :: ws).map .command ++ rest } =
        withInputs (ws.map .command ++ rest) (transact w s) := step_command w s _
    simp only [List.length_cons, Host.Core.run, hstep, transactAll, transact_withInputs]
    cases transact w s with
    | next t => exact ih t
    | fault e => rfl
    | refused r => rfl

theorem transact_answers_once {w : Word} {s t : State} (e : transact w s = .next t) :
    ∃ a, t.responses = s.responses ++ [a] := by
  cases hw : decode w with
  | ok i => exact (exec_writesOnly (transact_legal hw s ▸ e)).answered
  | error x =>
    rw [transact_illegal hw] at e
    cases e
    exact ⟨_, rfl⟩

theorem transactAll_next_cons {w : Word} {ws : List Word} {s t : State} (e : transactAll (w :: ws) s = .next t) :
    ∃ u, transact w s = .next u ∧ transactAll ws u = .next t := by
  rw [transactAll] at e
  split at e
  · rename_i u hu; exact ⟨u, hu, e⟩
  · cases e
  · cases e

theorem transactAll_answers (ws : List Word) (s t : State) (e : transactAll ws s = .next t) :
    ∃ answers, answers.length = ws.length ∧ t.responses = s.responses ++ answers := by
  induction ws generalizing s with
  | nil => cases e; exact ⟨[], rfl, (List.append_nil _).symm⟩
  | cons w ws ih =>
    obtain ⟨u, hu, ht⟩ := transactAll_next_cons e
    obtain ⟨a, ha⟩ := transact_answers_once hu
    obtain ⟨answers, hlen, happ⟩ := ih u ht
    exact ⟨a :: answers, congrArg (· + 1) hlen, by rw [happ, ha, List.append_assoc]; rfl⟩

/-- Settles O16: by induction on the queue, since a command's rule does not look at the words behind it; each word is
answered once. -/
theorem runIsFoldOfCommands : Obligations.RunIsFoldOfCommands :=
  ⟨run_eq_transactAll, transactAll_answers⟩

/-- From the invariant no command stops: it is the same to the host as itself. -/
theorem exec_ne_fault {s : State} (h : s.Inv) (i : Instr) (e : Fault) : exec i s ≠ .fault e := by
  obtain ⟨t, -, ht, -, -⟩ := exec_same (.refl s) h i
  simp [ht]

theorem execAll_pair {i j : Instr} {s t u : State} (hi : exec i s = .next t) (hj : exec j t = .next u) :
    execAll [i, j] s = .next u := by
  rw [execAll_cons hi, execAll_cons hj]
  rfl

/-- Settles O19: each of the two commands writes its own side of the block and answers from it, and the other command
leaves that side as it was. -/
theorem encAndDecCommandsCommute : Obligations.EncAndDecCommandsCommute := by
  intro e d s he hd hinv
  rcases exec_encoderLocal s he with ⟨x, hx⟩ | ⟨re, enc, henc⟩
  · exact absurd (hx s.decPart s.inputs s.responses) (exec_ne_fault hinv e x)
  rcases exec_decoderLocal s hd with ⟨x, hx⟩ | ⟨rd, dec, hdec⟩
  · exact absurd (hx s.encPart s.inputs s.responses) (exec_ne_fault hinv d x)
  refine ⟨s.withParts enc dec s.inputs s.responses, re.toWord, rd.toWord, ?_, ?_⟩
  · have hfirst := henc s.decPart s.inputs s.responses
    have hsecond := hdec enc s.inputs (s.responses ++ [re.toWord])
    exact (execAll_pair hfirst hsecond).trans (by simp [answer, State.withParts])
  · have hfirst := hdec s.encPart s.inputs s.responses
    have hsecond := henc dec s.inputs (s.responses ++ [rd.toWord])
    exact (execAll_pair hfirst hsecond).trans (by simp [answer, State.withParts])

/-- Settles O13: the step's own first case. -/
theorem blockWaitsForTheHost : Obligations.BlockWaitsForTheHost := fun _ => step_idle

end Sys2Proof.Machine
end

section
/-! Which buffer bytes a command can change: those at the cursor and on that it writes, where it writes any
(`20_memory.md` R42). -/

namespace Sys2Proof.Machine

section
variable {s t : State}

theorem read_writeSeq_outside (m : Memory) {i a : Nat} {bs : List Byte} (h : ¬(i ≤ a ∧ a < i + bs.length)) :
    (m.writeSeq i bs).read a = m.read a := by
  rw [read_writeSeq, if_neg h]

theorem execEncPut_ebuf_outside {b : Byte} {a : Nat} (e : execEncPut b s = .next t)
    (ha : ¬(s.ecur ≤ a ∧ a < s.ecur + (wireForm b).length)) : t.ebuf.read a = s.ebuf.read a := by
  rcases execEncPut_next e with ⟨-, rfl⟩ | ⟨-, rfl⟩
  · rfl
  · rw [answer_ebuf, encAccumulate_ebuf]
    exact read_writeSeq_outside _ ha

theorem execEncPut_ebuf_full {b : Byte} (hc : encCap s.cfg - 1 < s.ecur + (wireForm b).length)
    (e : execEncPut b s = .next t) : t.ebuf = s.ebuf := by
  rw [execEncPut_full hc] at e
  cases e
  rfl

theorem appended_read_outside (xs : List Byte) {a : Nat} (ha : ¬(s.ecur ≤ a ∧ a < (appended xs s).ecur)) :
    (appended xs s).ebuf.read a = s.ebuf.read a := read_writeSeq_outside _ ha

theorem execEncFin_ebuf_outside {a : Nat} (e : execEncFin s = .next t) (ha : ¬(s.ecur ≤ a ∧ a < t.ecur)) :
    t.ebuf.read a = s.ebuf.read a := by
  rcases execEncFin_next e with ⟨xs, -, -, rfl⟩ | ⟨xs, -, -, rfl⟩
  · exact appended_read_outside xs ha
  · have hle : s.ecur ≤ (appended xs s).ecur := Nat.le_add_right _ _
    have ha : ¬(s.ecur ≤ a ∧ a < (appended xs s).ecur + 1) := ha
    exact (read_write_of_ne _ _ (by omega)).trans (appended_read_outside xs (by omega))

theorem execDecPut_dbuf_of_ne {b : Byte} {a : Nat} (ha : a ≠ s.dcur) (e : execDecPut b s = .next t) :
    t.dbuf.read a = s.dbuf.read a := by
  cases execDecPut_next e with
  | stored v => exact read_write_of_ne _ _ ha
  | begun | discarded | restarted | completed | failed | escape | corrupt | exhausted => rfl

/-- `DEC.PUT` stores only a byte that is no sentinel, only inside a frame, and only where there is room
(`42_decoder.md` R142). -/
theorem execDecPut_dbuf_unstored {b : Byte}
    (hn : s.dstate = .waitingForStart ∨ classify b ≠ .other ∨ decCap s.cfg ≤ s.dcur) (e : execDecPut b s = .next t) :
    t.dbuf = s.dbuf := by
  cases execDecPut_next e with
  | stored v hd hb hroom =>
    rcases hn with hw | hcls | hfull
    · simp [hw] at hd
    · exact absurd (classify_eq_other.mpr hb) hcls
    · omega
  | begun | discarded | restarted | completed | failed | escape | corrupt | exhausted => rfl

end

/-- Settles O18: the two commands that write EBUF at its cursor, then the one that writes DBUF. -/
theorem buffersChangeOnlyAtTheCursor : Obligations.BuffersChangeOnlyAtTheCursor :=
  ⟨fun _ _ _ e => ⟨fun _ => execEncPut_ebuf_outside e, fun hc _ => by rw [execEncPut_ebuf_full hc e]⟩,
    fun _ _ e _ => execEncFin_ebuf_outside e,
    fun _ _ _ e => ⟨fun _ ha => execDecPut_dbuf_of_ne ha e, fun hn _ => by rw [execDecPut_dbuf_unstored hn e]⟩⟩

end Sys2Proof.Machine
end

section
/-! The command word read back (`30_encoding.md` R70 to R73): each argument form both ways, then the decoder against the
encoder, the reserved words and the rows of the opcode table. -/

namespace Sys2Proof.Machine

/-! ### The three argument forms (R71) -/

section
variable (op : BitVec 8)

theorem decodeB_argOfByte (b : Byte) (f : Byte → Instr) : decodeB (commandWord op (argOfByte b)) f = .ok (f b) := by
  rw [decodeB_commandWord, if_pos (argOfByte_high b), argOfByte_low]

theorem decodeI_ofNat {n : Nat} (hn : n < 2 ^ 24) (f : Nat → Instr) :
    decodeI (commandWord op (BitVec.ofNat 24 n)) f = .ok (f n) := by
  rw [decodeI_commandWord, BitVec.toNat_ofNat, Nat.mod_eq_of_lt hn]

end

section
variable {op : BitVec 8} {arg : BitVec 24} {i : Instr}

theorem decodeN_ok {j : Instr} (h : decodeN (commandWord op arg) j = .ok i) : arg = 0#24 ∧ i = j := by
  rw [decodeN_commandWord] at h
  split at h
  · rename_i harg; cases h; exact ⟨harg, rfl⟩
  · cases h

theorem decodeB_ok {f : Byte → Instr} (h : decodeB (commandWord op arg) f = .ok i) :
    ∃ b, arg = argOfByte b ∧ i = f b := by
  rw [decodeB_commandWord] at h
  split at h
  · rename_i hhigh; cases h; exact ⟨_, (argOfByte_of_high hhigh).symm, rfl⟩
  · cases h

theorem decodeI_ok {f : Nat → Instr} (h : decodeI (commandWord op arg) f = .ok i) :
    ∃ n < 2 ^ 24, arg = BitVec.ofNat 24 n ∧ i = f n := by
  rw [decodeI_commandWord] at h
  cases h
  exact ⟨arg.toNat, arg.isLt, (BitVec.ofNat_toNat 24 arg).symm ▸ (BitVec.setWidth_eq arg).symm, rfl⟩

end

/-! ### Decoder and encoder (R72) -/

theorem decode_encode {i : Instr} (h : i.wf = true) : decode (encode i) = .ok i := by
  cases i with
  | encReset | encFin | encStat | decReset | decStat => rfl
  | encPut b | decPut b => exact (decode_commandWord _ _).trans (decodeB_argOfByte _ b _)
  | encRead n | decRead n => exact (decode_commandWord _ _).trans (decodeI_ofNat _ (of_decide_eq_true h) _)

/-- Settles O1: an N-form word is one fixed word, and the opcode of a B-form or I-form word chooses the form that reads its
operand back. -/
theorem decodeOfEncode : Obligations.DecodeOfEncode := fun _ => decode_encode

/-- The opcode a word decodes under fixes the command's form, and the form its argument (R71, R72). -/
theorem encode_of_decode {w : Word} {i : Instr} (h : decode w = .ok i) : encode i = w ∧ i.wf = true := by
  rw [← commandWord_fields w] at h ⊢
  rw [decode_commandWord] at h
  generalize opField w = op at h ⊢
  generalize argField w = arg at h ⊢
  split_ifs at h with hop hop hop hop hop hop hop hop hop <;> subst hop
  · obtain ⟨rfl, rfl⟩ := decodeN_ok h; exact ⟨rfl, rfl⟩
  · obtain ⟨b, rfl, rfl⟩ := decodeB_ok h; exact ⟨rfl, rfl⟩
  · obtain ⟨rfl, rfl⟩ := decodeN_ok h; exact ⟨rfl, rfl⟩
  · obtain ⟨n, hn, rfl, rfl⟩ := decodeI_ok h; exact ⟨rfl, decide_eq_true hn⟩
  · obtain ⟨rfl, rfl⟩ := decodeN_ok h; exact ⟨rfl, rfl⟩
  · obtain ⟨rfl, rfl⟩ := decodeN_ok h; exact ⟨rfl, rfl⟩
  · obtain ⟨b, rfl, rfl⟩ := decodeB_ok h; exact ⟨rfl, rfl⟩
  · obtain ⟨n, hn, rfl, rfl⟩ := decodeI_ok h; exact ⟨rfl, decide_eq_true hn⟩
  · obtain ⟨rfl, rfl⟩ := decodeN_ok h; exact ⟨rfl, rfl⟩

/-- Settles O2: by the decoder's opcode cases, each of one form. -/
theorem encodeOfDecode : Obligations.EncodeOfDecode := fun _ _ => encode_of_decode

/-- Settles O5: each word is the encoder's for its command. -/
theorem specWordsDecode : Obligations.SpecWordsDecode :=
  ⟨decode_encode (i := .encReset) rfl, decode_encode (i := .encPut 0x2A#8) rfl, decode_encode (i := .encFin) rfl,
    decode_encode (i := .encRead 16777215) rfl, decode_encode (i := .encStat) rfl, decode_encode (i := .decReset) rfl,
    decode_encode (i := .decPut 0xE4#8) rfl, decode_encode (i := .decRead 3) rfl, decode_encode (i := .decStat) rfl⟩

end Sys2Proof.Machine
end

section
/-! Which words are legal: by the numbers of their two fields (`30_encoding.md` R73), and by the rows of the opcode table
(R72); then the step on a legal and on a reserved word. -/

namespace Sys2Proof.Machine

/-! ### The fields of a legal word -/

/-- R72's opcodes, each with the arguments its form admits (R71), as numbers. -/
def LegalFields (op arg : Nat) : Prop :=
  ((op = 0x10 ∨ op = 0x12 ∨ op = 0x14 ∨ op = 0x20 ∨ op = 0x23) ∧ arg = 0) ∨
  ((op = 0x11 ∨ op = 0x21) ∧ arg < 2 ^ 8) ∨ op = 0x13 ∨ op = 0x22

theorem argOfByte_toNat_lt (b : Byte) : (argOfByte b).toNat < 2 ^ 8 := by
  rw [argOfByte, BitVec.toNat_setWidth_of_le (by decide)]
  exact b.isLt

theorem argOfByte_ofNat {arg : BitVec 24} (h : arg.toNat < 2 ^ 8) : argOfByte (BitVec.ofNat 8 arg.toNat) = arg := by
  apply BitVec.eq_of_toNat_eq
  rw [argOfByte, BitVec.toNat_setWidth_of_le (by decide), BitVec.toNat_ofNat, Nat.mod_eq_of_lt h]

theorem legalFields_encode (i : Instr) : LegalFields (opField (encode i)).toNat (argField (encode i)).toNat := by
  cases i with
  | encReset | encFin | encStat | decReset | decStat => exact .inl (by decide)
  | encPut b | decPut b =>
    rw [encode, opField_commandWord, argField_commandWord]
    exact .inr (.inl ⟨by decide, argOfByte_toNat_lt b⟩)
  | encRead n | decRead n =>
    rw [encode, opField_commandWord]
    exact .inr (.inr (by decide))

theorem exists_encode_of_legalFields {op : BitVec 8} {arg : BitVec 24} (h : LegalFields op.toNat arg.toNat) :
    ∃ i : Instr, i.wf = true ∧ encode i = commandWord op arg := by
  have word {op' : BitVec 8} {arg' : BitVec 24} (hop : op.toNat = op'.toNat) (harg : arg' = arg) :
      commandWord op' arg' = commandWord op arg := by rw [harg, BitVec.eq_of_toNat_eq hop]
  have hindex : BitVec.ofNat 24 arg.toNat = arg := BitVec.ofNat_toNat 24 arg ▸ BitVec.setWidth_eq arg
  rcases h with ⟨hop, harg⟩ | ⟨hop, harg⟩ | hop
  · have harg : 0#24 = arg := (BitVec.eq_of_toNat_eq harg).symm
    rcases hop with hop | hop | hop | hop | hop
    · exact ⟨.encReset, rfl, word hop harg⟩
    · exact ⟨.encFin, rfl, word hop harg⟩
    · exact ⟨.encStat, rfl, word hop harg⟩
    · exact ⟨.decReset, rfl, word hop harg⟩
    · exact ⟨.decStat, rfl, word hop harg⟩
  · rcases hop with hop | hop
    · exact ⟨.encPut _, rfl, word hop (argOfByte_ofNat harg)⟩
    · exact ⟨.decPut _, rfl, word hop (argOfByte_ofNat harg)⟩
  · rcases hop with hop | hop
    · exact ⟨.encRead _, decide_eq_true arg.isLt, word hop hindex⟩
    · exact ⟨.decRead _, decide_eq_true arg.isLt, word hop hindex⟩

theorem exists_decode_iff_legalFields (w : Word) :
    (∃ i, decode w = .ok i) ↔ LegalFields (opField w).toNat (argField w).toNat := by
  constructor
  · rintro ⟨i, hi⟩
    rw [← (encode_of_decode hi).1]
    exact legalFields_encode i
  · intro h
    obtain ⟨i, hwf, hi⟩ := exists_encode_of_legalFields h
    rw [commandWord_fields] at hi
    exact ⟨i, hi ▸ decode_encode hwf⟩

theorem decode_error_of_not_ok {w : Word} (h : ∀ i, decode w ≠ .ok i) : ∃ e, decode w = .error e := by
  cases hw : decode w with
  | ok i => exact absurd hw (h i)
  | error e => exact ⟨e, rfl⟩

/-! ### The step on a command word -/

/-- R206: a reserved word is answered, and that is all. -/
theorem step_illegal {w : Word} (h : ∀ i, decode w ≠ .ok i) {s : State} {rest : List HostInput}
    (hs : s.inputs = .command w :: rest) : step s = .next (answer (.of .illegal 0) { s with inputs := rest }) := by
  obtain ⟨e, he⟩ := decode_error_of_not_ok h
  exact (step_input hs).trans (transact_illegal he _)

theorem step_legal {w : Word} {i : Instr} (h : decode w = .ok i) {s : State} {rest : List HostInput}
    (hs : s.inputs = .command w :: rest) : step s = exec i { s with inputs := rest } :=
  (step_input hs).trans (transact_legal h _)

theorem tableWord_toNat (w : Word) : tableWord 32 w.toNat = w := by
  rw [tableWord, Nat.mod_eq_of_lt w.isLt, BitVec.ofNat_toNat, BitVec.setWidth_eq]

/-- Settles O12: a legal input word is served by its command's rule, and a well-formed command's own word is legal. -/
theorem stepRunsDecodedCommand : Obligations.StepRunsDecodedCommand := by
  refine ⟨fun s w rest i hs hw => step_legal hw hs, fun s i hwf => ?_⟩
  rw [State.withFetchWord, tableWord_toNat]
  exact step_legal (decode_encode hwf) (presentWord_inputs _ s)

/-- Settles O3: R73's ranges are those of the fields that no legal word has. -/
theorem reservedWordsAnswerIllegal : Obligations.ReservedWordsAnswerIllegal := by
  intro w op arg reserved
  have hreserved : reserved ↔ ∀ i, decode w ≠ .ok i := by
    have hop : op < 2 ^ 8 := (opField_toNat w).symm.trans_lt (opField w).isLt
    rw [← not_exists, exists_decode_iff_legalFields, opField_toNat, argField_toNat]
    show reserved ↔ ¬LegalFields op arg
    unfold LegalFields reserved
    omega
  exact ⟨hreserved, fun hr s rest hs => step_illegal (hreserved.mp hr) hs⟩

/-! ### The rows of the opcode table -/

theorem filter_covers_encode (i : Instr) : opcodeTable.filter (fun r => r.covers (encode i)) = [opcodeRow i] := by
  cases i with
  | encReset => exact Laws.OwnRow.encReset
  | encPut b => exact Laws.OwnRow.encPut b
  | encFin => exact Laws.OwnRow.encFin
  | encRead n => exact Laws.OwnRow.encRead n
  | encStat => exact Laws.OwnRow.encStat
  | decReset => exact Laws.OwnRow.decReset
  | decPut b => exact Laws.OwnRow.decPut b
  | decRead n => exact Laws.OwnRow.decRead n
  | decStat => exact Laws.OwnRow.decStat

/-- The B-form mask leaves only a byte (R71). -/
theorem toNat_lt_of_mask_eq_zero {arg : BitVec 24} (h : arg &&& 0xFFFF00#24 = 0#24) : arg.toNat < 2 ^ 8 := by
  have hand : (arg.toNat >>> 8) &&& (2 ^ 16 - 1) = 0 := by
    have := congrArg (·.toNat >>> 8) h
    rwa [BitVec.toNat_and, Nat.shiftRight_and_distrib] at this
  have := arg.isLt
  rw [Nat.and_two_pow_sub_one_eq_mod, Nat.shiftRight_eq_div_pow] at hand
  omega

theorem and_opcodeMask (op : BitVec 8) : op &&& 0xFF#8 = op := BitVec.and_allOnes

section
variable {mn : String} {op pop : BitVec 8} {arg : BitVec 24}

theorem covers_nForm (h : OpcodeRow.covers ⟨mn, commandWord 0xFF#8 0xFFFFFF#24, commandWord pop 0#24⟩
    (commandWord op arg) = true) : op = pop ∧ arg = 0#24 := by
  have hmask : arg &&& 0xFFFFFF#24 = arg := BitVec.and_allOnes
  simpa [covers_commandWord, and_opcodeMask, hmask] using h

theorem covers_bForm (h : OpcodeRow.covers ⟨mn, commandWord 0xFF#8 0xFFFF00#24, commandWord pop 0#24⟩
    (commandWord op arg) = true) : op = pop ∧ arg.toNat < 2 ^ 8 := by
  rw [covers_commandWord, and_opcodeMask, Bool.and_eq_true, decide_eq_true_iff, decide_eq_true_iff] at h
  exact ⟨h.1, toNat_lt_of_mask_eq_zero h.2⟩

theorem covers_iForm (h : OpcodeRow.covers ⟨mn, commandWord 0xFF#8 0x000000#24, commandWord pop 0#24⟩
    (commandWord op arg) = true) : op = pop := by
  rw [covers_commandWord, and_opcodeMask, Bool.and_eq_true, decide_eq_true_iff] at h
  exact h.1

end

/-- A row covers only words whose opcode is its own and whose argument its form admits. -/
theorem legalFields_of_covers {r : OpcodeRow} (hr : r ∈ opcodeTable) {w : Word} (hw : r.covers w = true) :
    LegalFields (opField w).toNat (argField w).toNat := by
  rw [← commandWord_fields w] at hw
  generalize opField w = op at hw ⊢
  generalize argField w = arg at hw ⊢
  rw [opcodeTable_fields] at hr
  simp only [List.mem_cons, List.not_mem_nil, or_false] at hr
  rcases hr with rfl | rfl | rfl | rfl | rfl | rfl | rfl | rfl | rfl
  · obtain ⟨rfl, rfl⟩ := covers_nForm hw; exact .inl (by decide)
  · obtain ⟨rfl, harg⟩ := covers_bForm hw; exact .inr (.inl ⟨by decide, harg⟩)
  · obtain ⟨rfl, rfl⟩ := covers_nForm hw; exact .inl (by decide)
  · obtain rfl := covers_iForm hw; exact .inr (.inr (by decide))
  · obtain ⟨rfl, rfl⟩ := covers_nForm hw; exact .inl (by decide)
  · obtain ⟨rfl, rfl⟩ := covers_nForm hw; exact .inl (by decide)
  · obtain ⟨rfl, harg⟩ := covers_bForm hw; exact .inr (.inl ⟨by decide, harg⟩)
  · obtain rfl := covers_iForm hw; exact .inr (.inr (by decide))
  · obtain ⟨rfl, rfl⟩ := covers_nForm hw; exact .inl (by decide)

/-- Settles O4: a legal word is the word of its command, which has its own row alone; a word under some row is legal. -/
theorem oneRowPerLegalWord : Obligations.OneRowPerLegalWord := by
  intro w
  constructor
  · intro i hi
    obtain ⟨rfl, -⟩ := encode_of_decode hi
    exact filter_covers_encode i
  · intro hw
    refine List.filter_eq_nil_iff.mpr fun r hr hcov => ?_
    obtain ⟨i, hi⟩ := (exists_decode_iff_legalFields w).mpr (legalFields_of_covers hr hcov)
    exact hw i hi

end Sys2Proof.Machine
end

section
/-! The response word both ways (`30_encoding.md` R74, R75): its fields' numbers, and which words a host refuses
(`93_implementation_defined.md` I7, I8). -/

namespace Sys2Proof.Machine

/-- R74's layout, from the numbers of the five fields. -/
theorem toWord_eq_replyWord (r : Response) : r.toWord =
    replyWord r.status.code.toNat r.cons.toNat r.dstate.code.toNat r.mode.toNat r.value.toNat :=
  toWord_eq_ofNat r

theorem ofWord_toWord (r : Response) : Response.ofWord r.toWord = some r := by
  rw [Response.ofWord, toWord_status, toWord_dstate, ofCode_code, dstate_ofCode_code, toWord_cons, toWord_mode,
    toWord_value]

/-- What a word that a host can read says of each field. -/
theorem ofWord_eq_some {w : Word} {r : Response} (h : Response.ofWord w = some r) :
    w.extractLsb' 28 4 = r.status.code ∧ w.getLsbD 27 = r.cons ∧ w.extractLsb' 25 2 = r.dstate.code ∧
    w.getLsbD 24 = r.mode ∧ w.extractLsb' 0 24 = r.value := by
  unfold Response.ofWord at h
  split at h
  · rename_i st d hst hd
    cases h
    exact ⟨(code_ofCode hst).symm, rfl, (dstate_code_ofCode hd).symm, rfl, rfl⟩
  · cases h

theorem getLsbD_toNat (w : Word) (k : Nat) : (w.getLsbD k).toNat = w.toNat / 2 ^ k % 2 := by
  rw [BitVec.getLsbD, Nat.testBit_eq_decide_div_mod_eq]
  rcases Nat.mod_two_eq_zero_or_one (w.toNat / 2 ^ k) with h | h <;> simp [h]

theorem extract_toNat (w : Word) (k n : Nat) : (w.extractLsb' k n).toNat = w.toNat / 2 ^ k % 2 ^ n := by
  rw [BitVec.extractLsb'_toNat, Nat.shiftRight_eq_div_pow]

/-- R74's fields cover the word without a gap, so a word is the one its fields lay out. -/
theorem toWord_of_ofWord {w : Word} {r : Response} (h : Response.ofWord w = some r) : r.toWord = w := by
  obtain ⟨hst, hc, hd, hm, hv⟩ := ofWord_eq_some h
  have hst := congrArg BitVec.toNat hst
  have hd := congrArg BitVec.toNat hd
  have hv := congrArg BitVec.toNat hv
  have hc := congrArg Bool.toNat hc
  have hm := congrArg Bool.toNat hm
  rw [extract_toNat] at hst hd hv
  rw [getLsbD_toNat] at hc hm
  apply BitVec.eq_of_toNat_eq
  rw [(toWord_toNat r).1]
  have := w.isLt
  omega

/-! ### The refused words -/

theorem statusOfCode_eq_none (c : BitVec 4) : Status.ofCode c = none ↔ 0x6 ≤ c.toNat ∧ c.toNat ≤ 0xD := by
  revert c; decide

theorem dstateOfCode_eq_none (c : BitVec 2) : DState.ofCode c = none ↔ c.toNat = 3 := by
  revert c; decide

theorem ofWord_eq_none (w : Word) : Response.ofWord w = none ↔
    Status.ofCode (w.extractLsb' 28 4) = none ∨ DState.ofCode (w.extractLsb' 25 2) = none := by
  unfold Response.ofWord
  cases Status.ofCode (w.extractLsb' 28 4) <;> cases DState.ofCode (w.extractLsb' 25 2) <;> simp

/-- Settles O6: the codes are R75's and R26's, the fields read back both ways, and a host refuses just the codes that stand
for no status or no state of the decoder. -/
theorem responseWordLayout : Obligations.ResponseWordLayout := by
  refine ⟨fun r => ⟨?_, ofWord_toWord r⟩, fun _ _ => toWord_of_ofWord, fun w => ?_⟩
  · rw [toWord_eq_replyWord]
    congr 1
    · cases r.status <;> rfl
    · cases r.cons <;> rfl
    · cases r.dstate <;> rfl
    · cases r.mode <;> rfl
  · have hstatus : w.toNat / 2 ^ 28 % 2 ^ 4 = w.toNat / 2 ^ 28 := by have := w.isLt; omega
    rw [ofWord_eq_none, statusOfCode_eq_none, dstateOfCode_eq_none, extract_toNat, extract_toNat, hstatus]
    exact Iff.rfl

end Sys2Proof.Machine
end

section
/-! The assembler reads a listing back (`30_encoding.md` R77): its digits, its words, then each command's line. -/

namespace Sys2Proof.Machine

/-! ### Digits -/

theorem digitValue_digitChar {d : Nat} (h : d < 16) : digitValue (digitChar d) = some d := by
  revert d; decide

/-- A digit is neither the space between two words nor the start of a comment. -/
theorem digitChar_ne {d : Nat} (h : d < 16) : digitChar d ≠ ' ' ∧ digitChar d ≠ ';' := by
  revert d; decide

theorem digitsFrom_snoc {base acc n d : Nat} {cs : List Char} {c : Char} (hcs : digitsFrom base acc cs = some n)
    (hc : digitValue c = some d) (hd : d < base) : digitsFrom base acc (cs ++ [c]) = some (n * base + d) := by
  induction cs generalizing acc with
  | nil => cases hcs; simp [digitsFrom, hc, hd]
  | cons x xs ih =>
    rw [digitsFrom] at hcs
    split at hcs
    · cases hcs
    · rename_i y hy
      split at hcs
      · rename_i hlt; simp [digitsFrom, hy, hlt, ih hcs]
      · cases hcs

theorem digitsFrom_hexDigits (k n : Nat) : digitsFrom 16 0 (hexDigits k n) = some (n % 16 ^ k) := by
  induction k generalizing n with
  | zero => simp [hexDigits, digitsFrom, Nat.mod_one]
  | succ k ih =>
    have hlast : n % 16 < 16 := Nat.mod_lt n (by decide)
    rw [hexDigits, digitsFrom_snoc (ih (n / 16)) (digitValue_digitChar hlast) hlast, Nat.pow_succ', Nat.mod_mul,
      Nat.add_comm, Nat.mul_comm]

theorem hexDigits_ne {k n : Nat} {c : Char} (hc : c ∈ hexDigits k n) : c ≠ ' ' ∧ c ≠ ';' := by
  induction k generalizing n with
  | zero => simp [hexDigits] at hc
  | succ k ih =>
    rw [hexDigits, List.mem_append, List.mem_singleton] at hc
    rcases hc with hc | rfl
    · exact ih hc
    · exact digitChar_ne (Nat.mod_lt n (by decide))

theorem hexNumber_of_ne_nil {cs : List Char} (h : cs ≠ []) : hexNumber ('0' :: 'x' :: cs) = digitsFrom 16 0 cs := by
  cases cs with
  | nil => exact absurd rfl h
  | cons c cs => rfl

theorem hexNumber_hexDigits {k n : Nat} (hn : n < 16 ^ (k + 1)) :
    hexNumber ('0' :: 'x' :: hexDigits (k + 1) n) = some n := by
  rw [hexNumber_of_ne_nil (by simp [hexDigits]), digitsFrom_hexDigits, Nat.mod_eq_of_lt hn]

theorem byteOperand_hexDigits (b : Byte) : byteOperand ('0' :: 'x' :: hexDigits 2 b.toNat) = some b := by
  rw [byteOperand, hexNumber_hexDigits (k := 1) b.isLt]
  exact (if_pos b.isLt).trans (congrArg some (by simp))

theorem indexOperand_hexDigits {n : Nat} (hn : n < 2 ^ 24) :
    indexOperand ('0' :: 'x' :: hexDigits 6 n) = some n := by
  rw [indexOperand, hexNumber_hexDigits (k := 5) hn]
  exact if_pos hn

/-! ### Words -/

/-- Characters that make one word of a line. -/
def IsWord (cs : List Char) : Prop := cs ≠ [] ∧ ∀ c ∈ cs, c ≠ ' ' ∧ c ≠ ';'

theorem isWord_mnemonicChars (i : Instr) : IsWord (mnemonicChars i) := by
  cases i <;> simp [IsWord, mnemonicChars]

theorem isWord_hexNumber (k n : Nat) : IsWord ('0' :: 'x' :: hexDigits k n) := by
  refine ⟨nofun, fun c hc => ?_⟩
  simp only [List.mem_cons] at hc
  rcases hc with rfl | rfl | hc
  · decide
  · decide
  · exact hexDigits_ne hc

theorem takeWhile_no_comment {cs : List Char} (h : ∀ c ∈ cs, c ≠ ';') : cs.takeWhile (· ≠ ';') = cs :=
  List.takeWhile_eq_self_iff.mpr fun c hc => decide_eq_true (h c hc)

theorem splitOn_isWord {m : List Char} (hm : IsWord m) : m.splitOn ' ' = [m] :=
  List.splitOn_eq_singleton fun h => (hm.2 ' ' h).1 rfl

theorem lineWords_one {m : List Char} (hm : IsWord m) : lineWords m = [m] := by
  rw [lineWords, takeWhile_no_comment fun c hc => (hm.2 c hc).2, splitOn_isWord hm]
  simp [hm.1]

theorem lineWords_two {m x : List Char} (hm : IsWord m) (hx : IsWord x) : lineWords (m ++ ' ' :: x) = [m, x] := by
  have hcomment : ∀ c ∈ m ++ ' ' :: x, c ≠ ';' := by
    intro c hc
    rcases List.mem_append.mp hc with hc | hc
    · exact (hm.2 c hc).2
    · rcases List.mem_cons.mp hc with rfl | hc
      · decide
      · exact (hx.2 c hc).2
  rw [lineWords, takeWhile_no_comment hcomment, List.splitOn_append_cons_self, splitOn_isWord hm, splitOn_isWord hx]
  simp [hm.1, hx.1]

/-- The words of a listing with an operand. -/
theorem lineWords_operand (i : Instr) (k n : Nat) :
    lineWords (mnemonicChars i ++ [' ', '0', 'x'] ++ hexDigits k n) = [mnemonicChars i, '0' :: 'x' :: hexDigits k n] := by
  rw [List.append_assoc]
  exact lineWords_two (isWord_mnemonicChars i) (isWord_hexNumber k n)

/-! ### Lines -/

theorem assemble_mnemonic {i : Instr} (h : i ∈ plainCommands) : assemble (mnemonicChars i) = some i := by
  rw [assemble, lineWords_one (isWord_mnemonicChars i)]
  revert i; decide

theorem assemble_listing {i : Instr} (h : i.wf = true) : assemble (listing i) = some i := by
  cases i with
  | encReset | encFin | encStat | decReset | decStat => rw [listing]; exact assemble_mnemonic (by decide)
  | encPut b | decPut b =>
    rw [listing, assemble, lineWords_operand]
    simp [mnemonicChars, byteOperand_hexDigits]
  | encRead n | decRead n =>
    rw [listing, assemble, lineWords_operand]
    simp [mnemonicChars, indexOperand_hexDigits (of_decide_eq_true h)]

/-- Settles O7: a listing's words are the mnemonic and the operand, and each operand form reads its digits back. -/
theorem assemblerReadsListings : Obligations.AssemblerReadsListings := fun _ => assemble_listing

end Sys2Proof.Machine
end

section
/-! What a command's response can say (`30_encoding.md` R74, `60_exceptions.md` R201): its status among the command's own,
and 0 in the fields not defined for it. -/

namespace Sys2Proof.Machine

/-- The command `i` may answer with `r`: R201's statuses, and R74's fields. -/
structure IsAnswerOf (i : Instr) (r : Response) : Prop where
  status : r.status ∈ mayAnswer i
  cons : r.cons = true → ∃ b, i = .decPut b
  dstate : r.dstate ≠ .waitingForStart → i = .decStat
  mode : r.mode = true → i = .encStat ∨ i = .decStat

/-- A response with a status and a value alone is judged by its status. -/
theorem isAnswerOf_of {i : Instr} {st : Status} (h : st ∈ mayAnswer i) (v : Nat) : IsAnswerOf i (.of st v) :=
  ⟨h, nofun, fun hd => absurd rfl hd, nofun⟩

theorem isAnswerOf_consumed {b : Byte} {st : Status} (h : st ∈ mayAnswer (.decPut b)) (v : Nat) :
    IsAnswerOf (.decPut b) (.consumed st v) :=
  ⟨h, fun _ => ⟨b, rfl⟩, fun hd => absurd rfl hd, nofun⟩

/-- From `s` the command `i` went on to `t` with one response of its own. -/
def AnswersOwn (i : Instr) (s t : State) : Prop := ∃ r : Response, t.responses = s.responses ++ [r.toWord] ∧ IsAnswerOf i r

/-- The response is the last thing a command does, and nothing before it touches the responses. -/
theorem answersOwn_answer {i : Instr} {s u : State} {r : Response} (hu : u.responses = s.responses) (hr : IsAnswerOf i r) :
    AnswersOwn i s (answer r u) := ⟨r, congrArg (· ++ [r.toWord]) hu, hr⟩

section
variable {s t : State}

theorem execEncPut_answersOwn {b : Byte} (e : execEncPut b s = .next t) : AnswersOwn (.encPut b) s t := by
  rcases execEncPut_next e with ⟨-, rfl⟩ | ⟨-, rfl⟩
  · exact answersOwn_answer rfl (isAnswerOf_of (by simp [mayAnswer]) _)
  · exact answersOwn_answer (encAccumulate_responses b _) (isAnswerOf_of (by simp [mayAnswer]) _)

theorem execEncFin_answersOwn (e : execEncFin s = .next t) : AnswersOwn .encFin s t := by
  rcases execEncFin_next e with ⟨xs, -, -, rfl⟩ | ⟨xs, -, -, rfl⟩
  · exact answersOwn_answer rfl (isAnswerOf_of (by decide) _)
  · exact answersOwn_answer rfl (isAnswerOf_of (by decide) _)

theorem execDecPut_answersOwn {b : Byte} (e : execDecPut b s = .next t) : AnswersOwn (.decPut b) s t := by
  cases execDecPut_next e with
  | exhausted => exact answersOwn_answer rfl (isAnswerOf_of (by simp [mayAnswer]) _)
  | begun | discarded | restarted | completed | failed | escape | corrupt | stored =>
    exact answersOwn_answer rfl (isAnswerOf_consumed (by simp [mayAnswer]) _)

theorem exec_answersOwn {i : Instr} (e : exec i s = .next t) : AnswersOwn i s t := by
  cases i with
  | encReset => rw [execEncReset_next e]; exact answersOwn_answer rfl (isAnswerOf_of (by decide) _)
  | encPut b => exact execEncPut_answersOwn e
  | encFin => exact execEncFin_answersOwn e
  | encRead n =>
    rcases execEncRead_next e with ⟨-, rfl⟩ | ⟨-, v, -, rfl⟩
    · exact answersOwn_answer rfl (isAnswerOf_of (by simp [mayAnswer]) _)
    · exact answersOwn_answer rfl (isAnswerOf_of (by simp [mayAnswer]) _)
  | encStat =>
    rw [execEncStat_next e]
    exact answersOwn_answer rfl ⟨by simp [mayAnswer, Response.of], nofun, fun hd => absurd rfl hd, fun _ => .inl rfl⟩
  | decReset => rw [execDecReset_next e]; exact answersOwn_answer rfl (isAnswerOf_of (by decide) _)
  | decPut b => exact execDecPut_answersOwn e
  | decRead n =>
    rcases execDecRead_next e with ⟨-, rfl⟩ | ⟨-, v, -, rfl⟩
    · exact answersOwn_answer rfl (isAnswerOf_of (by simp [mayAnswer]) _)
    · exact answersOwn_answer rfl (isAnswerOf_of (by simp [mayAnswer]) _)
  | decStat =>
    rw [execDecStat_next e]
    exact answersOwn_answer rfl ⟨by simp [mayAnswer, Response.of], nofun, fun _ => rfl, fun _ => .inr rfl⟩

end

/-- Settles O20: by the ways each command can end. -/
theorem responsesAreTheCommandsOwn : Obligations.ResponsesAreTheCommandsOwn := by
  intro i s t e
  obtain ⟨r, hresp, hstatus, hcons, hdstate, hmode⟩ := exec_answersOwn e
  exact ⟨r, hresp, hstatus, hcons, hdstate, hmode⟩

end Sys2Proof.Machine
end

section
/-! The bytes on the wire (`30_encoding.md` R62 to R66): what a wire form holds, where a frame's sentinels stand, and how
long a frame is. -/

namespace Sys2Proof.Machine

/-! ### Wire forms (R63) -/

theorem not_mem_wireForm {x b : Byte} (hx : isSentinel x = true) (hne : x ≠ escByte) : x ∉ wireForm b := by
  cases hb : isSentinel b with
  | true =>
    have hcompl : x ≠ ~~~b := by rintro rfl; simp [complement_not_sentinel hb] at hx
    simp [wireForm_sentinel hb, hne, hcompl]
  | false =>
    have hplain : x ≠ b := by rintro rfl; simp [hb] at hx
    simp [wireForm_plain hb, hplain]

theorem startByte_not_mem_wireForm (b : Byte) : startByte ∉ wireForm b := not_mem_wireForm (by decide) (by decide)

theorem endByte_not_mem_wireForm (b : Byte) : endByte ∉ wireForm b := not_mem_wireForm (by decide) (by decide)

theorem wireForm_of_escByte_mem {b : Byte} (h : escByte ∈ wireForm b) :
    ∃ x, wireForm b = [escByte, x] ∧ isSentinel x = false := by
  cases hb : isSentinel b with
  | true => exact ⟨_, wireForm_sentinel hb, complement_not_sentinel hb⟩
  | false =>
    rw [wireForm_plain hb, List.mem_singleton] at h
    exact absurd (h ▸ hb) (by decide)

/-- Settles O41: a wire form is a plain byte, or ESC and the complement of a sentinel. -/
theorem wireFormsHideSentinels : Obligations.WireFormsHideSentinels := fun b =>
  ⟨complement_not_sentinel, startByte_not_mem_wireForm b, endByte_not_mem_wireForm b, wireForm_of_escByte_mem⟩

/-! ### Frames (R64) -/

section
variable (payload : List Byte) (m : Mode)

theorem not_mem_frameBody {x : Byte} (hx : ∀ b, x ∉ wireForm b) : x ∉ frameBody payload m := by
  simp only [frameBody, List.mem_flatMap, not_exists, not_and]
  exact fun b _ => hx b

theorem frame_length : (frame payload m).length = (frameBody payload m).length + 2 := by simp [frame]

theorem frame_getElem?_start (i : Nat) : (frame payload m)[i]? = some startByte ↔ i = 0 := by
  cases i with
  | zero => simp [frame]
  | succ i =>
    have hrest : startByte ∉ frameBody payload m ++ [endByte] := by
      simp [not_mem_frameBody _ _ startByte_not_mem_wireForm, show startByte ≠ endByte by decide]
    exact iff_of_false (fun h => hrest (List.mem_of_getElem? h)) (Nat.succ_ne_zero i)

theorem frame_getElem?_end (i : Nat) : (frame payload m)[i]? = some endByte ↔ i + 1 = (frame payload m).length := by
  have hhead : endByte ∉ startByte :: frameBody payload m := by
    simp [not_mem_frameBody _ _ endByte_not_mem_wireForm, show endByte ≠ startByte by decide]
  rw [frame_length, frame, ← List.cons_append]
  rcases Nat.lt_trichotomy i (frameBody payload m).length.succ with hi | rfl | hi
  · rw [List.getElem?_append_left hi]
    exact iff_of_false (fun h => hhead (List.mem_of_getElem? h)) (by omega)
  · simp
  · rw [List.getElem?_eq_none (by simp; omega)]
    exact iff_of_false nofun (by omega)

end

/-- Settles O42: what stands between a frame's first and last byte is made of wire forms, which hold neither START nor
END. -/
theorem frameSentinelPositions : Obligations.FrameSentinelPositions := fun payload m i =>
  ⟨frame_getElem?_start payload m i, frame_getElem?_end payload m i⟩

/-! ### The length of a frame (R66) -/

/-- Settles O43: START, END and the wire forms of the payload and, in `With` mode, of four trailer bytes, each one byte or
two. -/
theorem frameLengthBounds : Obligations.FrameLengthBounds := by
  intro payload
  have hpayload := length_le_wire payload
  have hpayload' := wire_length_le payload
  have htrailer := length_le_wire (beBytes (crc payload))
  have htrailer' := wire_length_le (beBytes (crc payload))
  have hwithout : (frame payload .withoutCrc).length = 2 + (payload.flatMap wireForm).length := by
    simp [frame_length, frameBody, trailer, Nat.add_comm]
  have hwith : (frame payload .withCrc).length =
      2 + (payload.flatMap wireForm).length + ((beBytes (crc payload)).flatMap wireForm).length := by
    rw [frame_length, frameBody, trailer, List.flatMap_append, List.length_append]; omega
  rw [beBytes_length] at htrailer htrailer'
  refine ⟨?_, ?_, by omega, by omega, by omega, by omega, fun c hc => ?_⟩
  · rw [hwithout, List.length_flatMap]
  · rw [hwith, List.length_flatMap, List.length_flatMap]
  · rw [encCap_eq, hc]

end Sys2Proof.Machine
end

section
/-! What each encoder command answers (`41_encoder.md` R101 to R105), with its response word written out. -/

namespace Sys2Proof.Machine

/-! ### The shared parts -/

/-- A response with a status and a value alone, as its word in the log. -/
theorem answer_of {st : Status} {v : Nat} (hv : v < 2 ^ 24) (s : State) :
    answer (.of st v) s = { s with responses := s.responses ++ [replyWord st.code.toNat 0 0 0 v] } := by
  rw [answer, of_toWord hv]

/-- A command that ends with such a response, its word written out. -/
theorem next_answer_of {r : Result} (st : Status) {v : Nat} {s : State} (h : r = .next (answer (.of st v) s))
    (hv : v < 2 ^ 24) : r = .next { s with responses := s.responses ++ [replyWord st.code.toNat 0 0 0 v] } :=
  h.trans (congrArg _ (answer_of hv s))

theorem modeBit_toNat (m : Mode) : (modeBit m).toNat = if m = .withCrc then 1 else 0 := by cases m <;> rfl

theorem encAccumulate_eq (b : Byte) (s : State) : encAccumulate b s =
    { s with eacc := if s.cfg.encMode = .withCrc then crcUpdate s.eacc b else s.eacc } := by
  cases hm : s.cfg.encMode with
  | withCrc => rw [encAccumulate_with b s hm, if_pos rfl]
  | withoutCrc => rw [encAccumulate_without b s hm, if_neg nofun]

/-- R100's `need`. -/
theorem wireForm_length_eq_need (b : Byte) :
    (wireForm b).length = if b = 0x02#8 ∨ b = 0x03#8 ∨ b = 0x1B#8 then 2 else 1 := by
  rw [wireForm_length]
  exact if_congr (isSentinel_iff b) rfl rfl

/-- The writes of R100, told apart by `need`. -/
theorem writeSeq_wireForm (m : Memory) (i : Nat) (b : Byte) : m.writeSeq i (wireForm b) =
    if (wireForm b).length = 2 then (m.write i 0x1B#8).write (i + 1) (~~~b) else m.write i b := by
  cases hb : isSentinel b with
  | true => rw [wireForm_sentinel hb]; rfl
  | false => rw [wireForm_plain hb]; rfl

/-- A sequence whose byte number `k` is the first that does not fit is appended up to it (R103). -/
theorem encAppendAll_stops_at {bs : List Byte} {s : State} {k : Nat} (hk : k < bs.length)
    (hbefore : k = 0 ∨ s.ecur + ((bs.take k).flatMap wireForm).length ≤ encCap s.cfg - 1)
    (hstop : encCap s.cfg - 1 < s.ecur + ((bs.take (k + 1)).flatMap wireForm).length) :
    encAppendAll bs s = (appended (bs.take k) s, false) := by
  have hsplit : bs = bs.take k ++ bs[k] :: bs.drop (k + 1) := by
    rw [← List.drop_eq_getElem_cons, List.take_append_drop]
  rw [List.take_succ_eq_append_getElem hk, List.flatMap_append, List.flatMap_singleton, List.length_append,
    ← Nat.add_assoc] at hstop
  exact (congrArg (encAppendAll · s) hsplit).trans
    (encAppendAll_stops (hbefore.imp_left (by rintro rfl; rfl)) hstop)

/-! ### The commands -/

/-- Settles O22: the reset of R101 and its fixed response word. -/
theorem encResetResult : Obligations.EncResetResult := fun _ => rfl

/-- Settles O23: by the room test of R100, whose `need` is the length of the byte's wire form. -/
theorem encPutResult : Obligations.EncPutResult := by
  intro s b hwf hcur need
  have hcap := encCap_lt hwf
  have hlen : (wireForm b).length = need := wireForm_length_eq_need b
  split
  · next hfull => exact next_answer_of .noRoom (execEncPut_full (by omega)) (by omega)
  · next hroom =>
    have h := next_answer_of .ok (execEncPut_fits (b := b) (s := s) (by omega)) (by omega)
    rwa [encAccumulate_eq, writeSeq_wireForm, hlen] at h

/-- Settles O24: `Without` mode has no trailer; in `With` mode the trailer is appended whole, or up to the first of its
bytes that does not fit. -/
theorem encFinResult : Obligations.EncFinResult := by
  intro s hwf hcur c bytes
  have hcap := encCap_lt hwf
  have hpos := encCap_pos s.cfg
  refine ⟨fun hm => ?_, ?_, ?_⟩
  · have htrailer := encTrailer_without hm
    split
    · next hfull => exact next_answer_of .noRoom (execEncFin_full htrailer hfull) (by omega)
    · next hroom => exact next_answer_of .frame (execEncFin_frame htrailer (by omega)) (by omega)
  · intro hm wire hfits
    have htrailer : encTrailer s = (appended bytes s, true) := (encTrailer_with hm).trans (encAppendAll_fits hfits)
    have hend : s.ecur + wire.length + 1 ≤ encCap s.cfg := by omega
    rw [writeSeq_append]
    exact next_answer_of .frame (execEncFin_frame htrailer hend) (Nat.lt_of_le_of_lt hend hcap)
  · intro hm k hk before hbefore hstop
    have hbound : s.ecur + before.length ≤ encCap s.cfg := by
      rcases hbefore with rfl | hbefore
      · exact hcur
      · omega
    have htrailer : encTrailer s = (appended (bytes.take k) s, false) :=
      (encTrailer_with hm).trans (encAppendAll_stops_at hk hbefore hstop)
    exact next_answer_of .noRoom (execEncFin_stops htrailer) (Nat.lt_of_le_of_lt hbound hcap)

/-- Settles O25: below the cursor the invariant gives the byte, and at index 0 it gives START. -/
theorem encReadResult : Obligations.EncReadResult := by
  intro s i h
  have hbelow : ∀ {j : Nat} {v : Byte}, j < s.ecur → s.ebuf.read j = some v →
      exec (.encRead j) s = .next { s with responses := s.responses ++ [replyWord 0x0 0 0 0 v.toNat] } := by
    intro j v hj hv
    exact next_answer_of .ok (execEncRead_below hj (memRead_ok (Nat.lt_of_lt_of_le hj h.ecurBound) hv)) (by omega)
  refine ⟨fun hi => ?_, execEncRead_above, hbelow h.ecurPos h.ebufStart⟩
  obtain ⟨v, hv, -⟩ := Inv_read_ebuf h hi
  exact ⟨v, hv, hbelow hi hv⟩

/-- Settles O26: the cursor fits `VALUE`, so the word is R74's layout of `OK`, `MODE` and the cursor. -/
theorem encStatResult : Obligations.EncStatResult := by
  intro s hwf hcur
  have hvalue : (BitVec.ofNat 24 s.ecur).toNat = s.ecur := by
    have := encCap_lt hwf
    rw [BitVec.toNat_ofNat]; omega
  show Host.Outcome.next (answer _ s) = _
  rw [answer, toWord_eq_replyWord, ← modeBit_toNat]
  simp only [Response.of, hvalue]
  rfl

end Sys2Proof.Machine
end

section
/-! ENC.PUTN (`41_encoder.md` R106): the state after the puts that fit, and where the sequence stops. -/

namespace Sys2Proof.Machine

/-- The state after ENC.PUT of a byte that fits (R102). -/
def afterPut (b : Byte) (s : State) : State :=
  answer (.of .ok (s.ecur + (wireForm b).length)) (encAccumulate b (appended [b] s))

/-- The state after ENC.PUT of each byte in turn, where all fit. -/
def afterPuts : List Byte → State → State
  | [], s => s
  | b :: bs, s => afterPuts bs (afterPut b s)

/-! ### One put -/

theorem exec_encPut_fits {b : Byte} {s : State} (h : s.ecur + (wireForm b).length ≤ encCap s.cfg - 1) :
    exec (.encPut b) s = .next (afterPut b s) :=
  (execEncPut_fits h).trans (by simp [afterPut, appended])

@[simp] theorem lastStatus_answer (r : Response) (s : State) : lastStatus (answer r s) = some r.status := by
  simp [lastStatus, lastResponse, ofWord_toWord]

theorem isOkWord_of_ok (v : Nat) : isOkWord false (Response.of .ok v).toWord = true := by
  rw [isOkWord, toWord_status, toWord_cons]; rfl

section
variable (b : Byte) (s : State)

@[simp] theorem afterPut_cfg : (afterPut b s).cfg = s.cfg := by simp [afterPut, appended]

@[simp] theorem afterPut_ebuf : (afterPut b s).ebuf = s.ebuf.writeSeq s.ecur (wireForm b) := by simp [afterPut, appended]

@[simp] theorem afterPut_ecur : (afterPut b s).ecur = s.ecur + (wireForm b).length := by simp [afterPut, appended]

@[simp] theorem afterPut_eacc :
    (afterPut b s).eacc = if s.cfg.encMode = .withCrc then crcUpdate s.eacc b else s.eacc := by
  simp [afterPut, encAccumulate_eq, appended]

@[simp] theorem afterPut_decPart : (afterPut b s).decPart = s.decPart := by simp [afterPut, appended, State.decPart]

@[simp] theorem afterPut_responses : (afterPut b s).responses =
    s.responses ++ [(Response.of .ok (s.ecur + (wireForm b).length)).toWord] := by simp [afterPut, appended]

end

/-! ### The puts of a sequence -/

section
variable (bs : List Byte) (s : State)

@[simp] theorem afterPuts_cfg : (afterPuts bs s).cfg = s.cfg := by
  induction bs generalizing s with
  | nil => rfl
  | cons b bs ih => rw [afterPuts, ih, afterPut_cfg]

theorem afterPuts_ebuf : (afterPuts bs s).ebuf = s.ebuf.writeSeq s.ecur (bs.flatMap wireForm) := by
  induction bs generalizing s with
  | nil => rfl
  | cons b bs ih => rw [afterPuts, ih, afterPut_ebuf, afterPut_ecur, List.flatMap_cons, writeSeq_append]

theorem afterPuts_ecur : (afterPuts bs s).ecur = s.ecur + (bs.flatMap wireForm).length := by
  induction bs generalizing s with
  | nil => rfl
  | cons b bs ih => rw [afterPuts, ih, afterPut_ecur, List.flatMap_cons, List.length_append, Nat.add_assoc]

theorem afterPuts_eacc :
    (afterPuts bs s).eacc = if s.cfg.encMode = .withCrc then bs.foldl crcUpdate s.eacc else s.eacc := by
  induction bs generalizing s with
  | nil => simp [afterPuts]
  | cons b bs ih =>
    rw [afterPuts, ih, afterPut_cfg, afterPut_eacc]
    split <;> rfl

theorem afterPuts_decPart : (afterPuts bs s).decPart = s.decPart := by
  induction bs generalizing s with
  | nil => rfl
  | cons b bs ih => rw [afterPuts, ih, afterPut_decPart]

theorem afterPuts_responses : ∃ oks, (afterPuts bs s).responses = s.responses ++ oks ∧ oks.length = bs.length ∧
    oks.all (isOkWord false) = true := by
  induction bs generalizing s with
  | nil => exact ⟨[], (List.append_nil _).symm, rfl, rfl⟩
  | cons b bs ih =>
    obtain ⟨oks, hresp, hlen, hall⟩ := ih (afterPut b s)
    refine ⟨(Response.of .ok (s.ecur + (wireForm b).length)).toWord :: oks, ?_, congrArg (· + 1) hlen, ?_⟩
    · rw [afterPuts, hresp, afterPut_responses, List.append_assoc]; rfl
    · rw [List.all_cons, isOkWord_of_ok, hall]; rfl

end

/-! ### The sequence as ENC.PUTN serves it -/

theorem encPutN_cons_full {b : Byte} {s : State} (h : encCap s.cfg - 1 < s.ecur + (wireForm b).length)
    (bs : List Byte) : encPutN (b :: bs) s = .next (answer (.of .noRoom s.ecur) s, 0) := by
  rw [encPutN, show exec (.encPut b) s = _ from execEncPut_full h]
  exact if_pos (lastStatus_answer _ _)

theorem encPutN_cons_fits {b : Byte} {s t : State} {bs : List Byte} {count : Nat}
    (h : s.ecur + (wireForm b).length ≤ encCap s.cfg - 1) (hbs : encPutN bs (afterPut b s) = .next (t, count)) :
    encPutN (b :: bs) s = .next (t, count + 1) := by
  have hok : lastStatus (afterPut b s) ≠ some .noRoom := by
    rw [afterPut, lastStatus_answer]; simp [Response.of]
  simp only [encPutN, exec_encPut_fits h, if_neg hok, hbs]

/-- All that ENC.PUTN can do: every byte lands, or those before the first that does not fit. -/
theorem encPutN_cases (bytes : List Byte) {s : State} (hcur : s.ecur ≤ encCap s.cfg) :
    encPutN bytes s = .next (afterPuts bytes s, bytes.length) ∨
    ∃ xs b ys, bytes = xs ++ b :: ys ∧
      encPutN bytes s = .next (answer (.of .noRoom (afterPuts xs s).ecur) (afterPuts xs s), xs.length) ∧
      (afterPuts xs s).ecur ≤ encCap s.cfg ∧ encCap s.cfg - 1 < (afterPuts xs s).ecur + (wireForm b).length := by
  induction bytes generalizing s with
  | nil => exact .inl rfl
  | cons b bs ih =>
    by_cases hroom : s.ecur + (wireForm b).length ≤ encCap s.cfg - 1
    · have hcur' : (afterPut b s).ecur ≤ encCap (afterPut b s).cfg := by
        rw [afterPut_ecur, afterPut_cfg]; omega
      rcases ih hcur' with hall | ⟨xs, y, ys, rfl, hstop, hbound, hy⟩
      · exact .inl (encPutN_cons_fits hroom hall)
      · rw [afterPut_cfg] at hbound hy
        exact .inr ⟨b :: xs, y, ys, rfl, encPutN_cons_fits hroom hstop, hbound, hy⟩
    · exact .inr ⟨[], b, bs, rfl, encPutN_cons_full (by omega) bs, hcur, by rw [afterPuts]; omega⟩

/-- A sequence that fits lands whole. -/
theorem encPutN_fits {bytes : List Byte} {s : State} (h : s.ecur + (bytes.flatMap wireForm).length ≤ encCap s.cfg - 1) :
    encPutN bytes s = .next (afterPuts bytes s, bytes.length) := by
  rcases encPutN_cases bytes (s := s) (by omega) with hall | ⟨xs, b, ys, rfl, -, -, hb⟩
  · exact hall
  · rw [afterPuts_ecur] at hb
    simp only [List.flatMap_append, List.flatMap_cons, List.length_append] at h
    omega

/-- Settles O27: the count is the number of leading bytes that land, and a byte is left over only where it did not fit. -/
theorem encPutNCountsAppendedBytes : Obligations.EncPutNCountsAppendedBytes := by
  intro bytes s hwf hcur
  rcases encPutN_cases bytes hcur with hall | ⟨xs, b, ys, rfl, hstop, hbound, hb⟩
  · refine ⟨_, _, hall, Nat.le_refl _, ?_, ?_, ?_, fun b rest hdrop => ?_⟩
    · rw [List.take_length, afterPuts_ebuf]
    · rw [List.take_length, afterPuts_ecur]
    · rw [List.take_length, afterPuts_eacc]
    · rw [List.drop_length] at hdrop; cases hdrop
  · refine ⟨_, _, hstop, by simp, ?_, ?_, ?_, fun b' rest hdrop => ?_⟩
    · rw [List.take_left, answer_ebuf, afterPuts_ebuf]
    · rw [List.take_left, answer_ecur, afterPuts_ecur]
    · rw [List.take_left, answer_eacc, afterPuts_eacc]
    · rw [List.drop_left] at hdrop
      cases hdrop
      refine ⟨hb, ?_⟩
      rw [answer_of (Nat.lt_of_le_of_lt hbound (encCap_lt hwf)), List.getLast?_concat]
      rfl

end Sys2Proof.Machine
end

section
/-! ENC.FRAME of a payload that fits builds the payload's frame (`41_encoder.md` R108). -/

namespace Sys2Proof.Machine

/-! ### A frame in the buffer -/

theorem payload_trailer_length_le {payload : List Byte} {c : Config} {m : Mode} (h : payload.length ≤ maxPayload c m) :
    payload.length + (trailer payload m).length ≤ c.maxp + crcLen := by
  cases m with
  | withCrc => exact Nat.add_le_add_right h 4
  | withoutCrc => exact h

/-- A payload that fits has a frame that fits `EBUF` (R66, R108). -/
theorem frame_length_le_encCap {payload : List Byte} {c : Config} {m : Mode} (h : payload.length ≤ maxPayload c m) :
    (frame payload m).length ≤ encCap c := by
  have hwire := wire_length_le (payload ++ trailer payload m)
  have hbytes := payload_trailer_length_le h
  rw [List.length_append] at hwire
  rw [frame_length, frameBody, encCap]
  omega

/-- The trailer step of ENC.FIN appends the payload's trailer where the accumulator holds the payload's CRC (R103, R65). -/
theorem encTrailer_payload {payload : List Byte} {s : State} (hacc : s.cfg.encMode = .withCrc → s.eacc = crc payload)
    (hfits : s.ecur + ((trailer payload s.cfg.encMode).flatMap wireForm).length ≤ encCap s.cfg - 1) :
    encTrailer s = (appended (trailer payload s.cfg.encMode) s, true) := by
  cases hm : s.cfg.encMode with
  | withCrc =>
    rw [hm, trailer, ← hacc hm] at hfits
    rw [encTrailer_with hm, trailer, ← hacc hm]
    exact encAppendAll_fits hfits
  | withoutCrc => rw [encTrailer_without hm, trailer, appended_nil]

/-- The encoder stands as after a reset and the puts of a payload: what ENC.FIN needs to end the payload's frame. -/
structure HoldsPayload (payload : List Byte) (s : State) : Prop where
  ebuf : s.ebuf.holds (startByte :: payload.flatMap wireForm)
  ecur : s.ecur = (startByte :: payload.flatMap wireForm).length
  eacc : s.cfg.encMode = .withCrc → s.eacc = crc payload

theorem holdsPayload_afterPuts (payload : List Byte) (r : Response) (s : State) :
    HoldsPayload payload (afterPuts payload (answer r (encFullReset s))) where
  ebuf := by
    rw [afterPuts_ebuf]
    exact holds_writeSeq (holds_write (holds_nil s.ebuf) startByte) _
  ecur := by rw [afterPuts_ecur, List.length_cons, Nat.add_comm]; rfl
  eacc hm := by
    rw [afterPuts_cfg] at hm
    rw [afterPuts_eacc, if_pos hm]; rfl

/-- ENC.FIN after the puts of a payload whose frame fits (R103). -/
theorem execEncFin_of_holdsPayload {payload : List Byte} {s : State} (h : HoldsPayload payload s) (hwf : s.cfg.wf)
    (hfits : (frame payload s.cfg.encMode).length ≤ encCap s.cfg) :
    ∃ t, exec .encFin s = .next t ∧ t.ebuf.holds (frame payload s.cfg.encMode) ∧
      t.ecur = (frame payload s.cfg.encMode).length ∧
      t.responses = s.responses ++ [replyWord 0x1 0 0 0 (frame payload s.cfg.encMode).length] := by
  have hframe : frame payload s.cfg.encMode = startByte :: payload.flatMap wireForm ++
      (trailer payload s.cfg.encMode).flatMap wireForm ++ [endByte] := by
    rw [frame, frameBody, List.flatMap_append]; rfl
  have hlen : (frame payload s.cfg.encMode).length =
      s.ecur + ((trailer payload s.cfg.encMode).flatMap wireForm).length + 1 := by
    rw [hframe, List.length_append, List.length_append, h.ecur]; rfl
  have htrailer := encTrailer_payload h.eacc (by omega)
  rw [hlen] at hfits ⊢
  have hfin := next_answer_of .frame (execEncFin_frame htrailer hfits) (Nat.lt_of_le_of_lt hfits (encCap_lt hwf))
  refine ⟨_, hfin, ?_, rfl, rfl⟩
  have hbefore := holds_writeSeq h.ebuf ((trailer payload s.cfg.encMode).flatMap wireForm)
  rw [← h.ecur] at hbefore
  have hend := holds_write hbefore endByte
  rwa [List.length_append, ← h.ecur, ← hframe] at hend

/-! ### The three commands of ENC.FRAME -/

theorem encFrame_next {payload : List Byte} {s t u v : State} {count : Nat} (hreset : exec .encReset s = .next t)
    (hputs : encPutN payload t = .next (u, count)) (hfin : exec .encFin u = .next v) :
    encFrame payload s = .next (v, count) := by
  simp only [encFrame, hreset, hputs, hfin]

/-- Settles O46: the frame of a payload that fits, fits `EBUF`, so every put and the trailer land. -/
theorem encoderBuildsTheFrame : Obligations.EncoderBuildsTheFrame := by
  intro payload s hwf hpayload
  have hfits := frame_length_le_encCap hpayload
  have hroom : 1 + (payload.flatMap wireForm).length ≤ encCap s.cfg - 1 := by
    rw [frame_length, frameBody, List.flatMap_append, List.length_append] at hfits
    omega
  let start : State := answer (.of .ok 1) (encFullReset s)
  have hcfg : (afterPuts payload start).cfg = s.cfg := afterPuts_cfg payload start
  have hheld : HoldsPayload payload (afterPuts payload start) := holdsPayload_afterPuts payload _ s
  obtain ⟨oks, hresp, hlen, hall⟩ := afterPuts_responses payload start
  obtain ⟨t, hfin, hebuf, hecur, hlast⟩ := execEncFin_of_holdsPayload hheld (by rwa [hcfg]) (by rwa [hcfg])
  have hframe := exec_writesOnly hfin
  rw [hcfg] at hebuf hecur hlast
  refine ⟨t, oks, encFrame_next rfl (encPutN_fits hroom) hfin, hebuf, hecur, ?_, hlen, hall, ?_, ?_⟩
  · rw [hlast, hresp, answer_responses, encFullReset_responses, List.append_assoc s.responses]; rfl
  · exact (hframe.decPart rfl).trans (afterPuts_decPart payload start)
  · exact hframe.cfg.trans hcfg

end Sys2Proof.Machine
end

section
/-! What each decoder command answers (`42_decoder.md` R131 to R144), with its response word written out. -/

namespace Sys2Proof.Machine

/-! ### The shared parts -/

/-- A consumed byte's response, as its word in the log. -/
theorem answer_consumed {st : Status} {v : Nat} (hv : v < 2 ^ 24) (s : State) :
    answer (.consumed st v) s = { s with responses := s.responses ++ [replyWord st.code.toNat 1 0 0 v] } := by
  rw [answer, consumed_toWord hv]

/-- A DEC.PUT that consumes its byte, its response word written out. -/
theorem next_answer_consumed {r : Result} (st : Status) {v : Nat} {s : State}
    (h : r = .next (answer (.consumed st v) s)) (hv : v < 2 ^ 24) :
    r = .next { s with responses := s.responses ++ [replyWord st.code.toNat 1 0 0 v] } :=
  h.trans (congrArg _ (answer_consumed hv s))

theorem isSentinel_eq_false {b : Byte} (hstart : b ≠ startByte) (hend : b ≠ endByte) (hesc : b ≠ escByte) :
    isSentinel b = false := by
  rw [← Bool.not_eq_true, isSentinel_iff]
  simp [hstart, hend, hesc]

/-- A byte to store, both outcomes with their response words (R137, R140). -/
theorem storeOrExhausted_eq {s : State} (hwf : s.cfg.wf) (hcur : s.dcur ≤ decCap s.cfg) (v : Byte) :
    storeOrExhausted v s = .next
      (if s.dcur < decCap s.cfg then { s with
        dbuf := s.dbuf.write s.dcur v, dcur := s.dcur + 1, dstate := .accepting
        responses := s.responses ++ [replyWord 0x0 1 0 0 (s.dcur + 1)] }
      else { s with responses := s.responses ++ [replyWord 0x3 0 0 0 s.dcur] }) := by
  have hcap := decCap_lt hwf
  split
  · next hroom => exact next_answer_consumed .ok (storeOrExhausted_room hroom) (by omega)
  · next hfull => exact next_answer_of .exhausted (storeOrExhausted_full (by omega)) (by omega)

/-! ### The cells of DEC.PUT -/

section
variable {s : State} {b : Byte}

theorem execDecPut_restart (hs : s.dstate ≠ .waitingForStart) :
    execDecPut startByte s = .next (answer (.consumed .ok 0) (decRestart s)) := by
  cases hd : s.dstate with
  | waitingForStart => exact absurd hd hs
  | accepting => rw [execDecPut_accepting hd, classify_startByte]; rfl
  | escaped => rw [execDecPut_escaped hd, classify_startByte]; rfl

theorem execDecPut_end (hs : s.dstate = .accepting) : execDecPut endByte s = cellAcceptingEnd s := by
  rw [execDecPut_accepting hs, classify_endByte]

theorem execDecPut_esc (hs : s.dstate = .accepting) :
    execDecPut escByte s = .next (answer (.consumed .ok s.dcur) { s with dstate := .escaped }) := by
  rw [execDecPut_accepting hs, classify_escByte]; rfl

theorem execDecPut_plain (hs : s.dstate = .accepting) (hb : isSentinel b = false) :
    execDecPut b s = storeOrExhausted b s := by
  rw [execDecPut_accepting hs, classify_eq_other.mpr hb]; rfl

theorem execDecPut_complement (hs : s.dstate = .escaped) (hb : isSentinel b = false) :
    execDecPut b s = storeOrExhausted (~~~b) s := by
  rw [execDecPut_escaped hs, classify_eq_other.mpr hb]; rfl

theorem execDecPut_corrupt (hs : s.dstate = .escaped) (hb : b = endByte ∨ b = escByte) :
    execDecPut b s = .next (answer (.consumed .corrupt 0) (decFullReset s)) := by
  rcases hb with rfl | rfl
  · rw [execDecPut_escaped hs, classify_endByte]; rfl
  · rw [execDecPut_escaped hs, classify_escByte]; rfl

end

/-! ### What validation says of the collected bytes -/

/-- `Validate()` (R141) as a function of the bytes collected. -/
def verdict (m : Mode) (bytes : List Byte) : Option Nat :=
  match m with
  | .withoutCrc => some bytes.length
  | .withCrc =>
    if bytes.length < crcLen then none
    else if trailerMatches bytes then some (bytes.length - crcLen) else none

theorem validate_eq_verdict {s : State} {bytes : List Byte} (hb : s.dbuf.holds bytes) (hl : s.dcur = bytes.length)
    (hc : s.dcur ≤ decCap s.cfg) : validate s = .ok (verdict s.cfg.decMode bytes) := by
  cases hm : s.cfg.decMode with
  | withoutCrc => rw [validate_without hm, hl]; rfl
  | withCrc =>
    rw [verdict, ← hl]
    split
    · next hshort => exact validate_short hm hshort
    · next hlong => exact validate_with hm hb hl.symm hc (by omega)

theorem verdict_short {bytes : List Byte} (h : bytes.length < 4) : verdict .withCrc bytes = none := if_pos h

theorem verdict_long {bytes : List Byte} (h : 4 ≤ bytes.length) : verdict .withCrc bytes =
    if beWord (bytes.drop (bytes.length - 4)) = crc (bytes.take (bytes.length - 4)) then some (bytes.length - 4)
    else none :=
  (if_neg (Nat.not_lt.mpr h)).trans (if_congr beq_iff_eq rfl rfl)

/-- The four bytes after a payload are taken for its trailer. -/
theorem verdict_append (payload : List Byte) {tail : List Byte} (h : tail.length = 4) :
    verdict .withCrc (payload ++ tail) = if beWord tail = crc payload then some payload.length else none := by
  have hlen : (payload ++ tail).length - 4 = payload.length := by rw [List.length_append, h, Nat.add_sub_cancel]
  rw [verdict_long (by rw [List.length_append]; omega), hlen, List.drop_left, List.take_left]

/-- A payload and its own trailer are accepted, in either mode. -/
theorem verdict_payload_trailer (payload : List Byte) (m : Mode) :
    verdict m (payload ++ trailer payload m) = some payload.length := by
  cases m with
  | withCrc => rw [trailer, verdict_append payload (beBytes_length _), beWord_beBytes, if_pos rfl]
  | withoutCrc => rw [trailer, List.append_nil]; rfl

/-- R45 of four bytes. -/
theorem beWord_four (b3 b2 b1 b0 : Byte) : beWord [b3, b2, b1, b0] =
    (b3.setWidth 32 <<< 24) ||| (b2.setWidth 32 <<< 16) ||| (b1.setWidth 32 <<< 8) ||| b0.setWidth 32 := by
  simp [beWord, BitVec.shiftLeft_or_distrib, ← BitVec.shiftLeft_add]

/-- The state END leaves, from what validation says (R135). -/
def afterEnd (v : Option Nat) (s : State) : State :=
  match v with
  | some len => { s with responses := s.responses ++ [replyWord 0x1 1 0 0 len] }
  | none => { s with dstate := .waitingForStart, dcur := 0, responses := s.responses ++ [0x58000000#32] }

theorem exec_end_of_validate {s : State} {v : Option Nat} (hs : s.dstate = .accepting) (hv : validate s = .ok v)
    (hlen : ∀ len, v = some len → len < 2 ^ 24) : exec (.decPut 0x03#8) s = .next (afterEnd v s) := by
  cases v with
  | some len =>
    exact next_answer_consumed .frame ((execDecPut_end hs).trans (cellAcceptingEnd_valid hv)) (hlen len rfl)
  | none => exact (execDecPut_end hs).trans (cellAcceptingEnd_invalid hv)

theorem verdict_le {m : Mode} {bytes : List Byte} {len : Nat} (h : verdict m bytes = some len) :
    len ≤ bytes.length := by
  cases m with
  | withoutCrc => cases h; exact Nat.le_refl _
  | withCrc =>
    by_cases hlong : 4 ≤ bytes.length
    · rw [verdict_long hlong] at h
      obtain ⟨-, hlen⟩ := Option.ite_none_right_eq_some.mp h
      cases hlen
      exact Nat.sub_le _ _
    · rw [verdict_short (by omega)] at h; cases h

/-- END while accepting, by the verdict on the bytes the decoder holds (R135, R141). -/
theorem exec_end_of_holds {s : State} {bytes : List Byte} (hwf : s.cfg.wf) (hs : s.dstate = .accepting)
    (hb : s.dbuf.holds bytes) (hl : s.dcur = bytes.length) (hc : s.dcur ≤ decCap s.cfg) :
    exec (.decPut 0x03#8) s = .next (afterEnd (verdict s.cfg.decMode bytes) s) :=
  exec_end_of_validate hs (validate_eq_verdict hb hl hc) fun len hv => by
    have := verdict_le hv
    have := decCap_lt hwf
    omega

/-! ### The commands -/

/-- Settles O28: the reset of R131 and its fixed response word. -/
theorem decResetResult : Obligations.DecResetResult := fun _ => rfl

/-- Settles O29: the cell of a waiting decoder, by whether the byte is START. -/
theorem decPutWhileWaiting : Obligations.DecPutWhileWaiting := by
  intro s b hs
  refine (execDecPut_waiting hs).trans ?_
  by_cases hb : b = startByte
  · subst hb; rfl
  · rw [cellWaiting, if_neg hb, if_neg (show b ≠ 0x02#8 from hb), ← hs]; rfl

/-- Settles O30: both cells of START restart the frame. -/
theorem decPutStartRestarts : Obligations.DecPutStartRestarts := by
  intro s hs
  refine execDecPut_restart fun hw => ?_
  simp [hw] at hs

/-- Settles O31: by the verdict on the collected bytes; a short frame is not read at all. -/
theorem decPutEndResult : Obligations.DecPutEndResult := by
  intro s hwf hs hcur
  have hcap := decCap_lt hwf
  refine ⟨fun hm => ?_, fun hm hshort => ?_, ?_⟩
  · exact exec_end_of_validate hs (validate_without hm) fun len hlen => by cases hlen; omega
  · exact exec_end_of_validate hs (validate_short hm hshort) nofun
  · intro hm payload b3 b2 b1 b0 hb hl rx
    have hend := exec_end_of_holds hwf hs hb (by rw [hl, List.length_append]; rfl) hcur
    rw [hm, verdict_append payload rfl, beWord_four] at hend
    split
    · next hmatch => rwa [if_pos hmatch] at hend
    · next hdiffer => rwa [if_neg hdiffer] at hend

/-- Settles O32: the cell of ESC, which looks at no room. -/
theorem decPutEscape : Obligations.DecPutEscape := fun _ hwf hs hcur =>
  next_answer_consumed .ok (execDecPut_esc hs) (Nat.lt_of_le_of_lt hcur (decCap_lt hwf))

/-- Settles O33: a plain byte is stored as it is, and the state it leaves, Accepting, is the one it found. -/
theorem decPutStoresPlainByte : Obligations.DecPutStoresPlainByte := by
  intro s b hwf hs hcur hstart hend hesc
  have hput : exec (.decPut b) s = _ :=
    (execDecPut_plain hs (isSentinel_eq_false hstart hend hesc)).trans (storeOrExhausted_eq hwf hcur b)
  rwa [← hs] at hput

/-- Settles O34: a plain byte after ESC is stored complemented. -/
theorem decPutStoresEscapedByte : Obligations.DecPutStoresEscapedByte := fun _ b hwf hs hcur hstart hend hesc =>
  (execDecPut_complement hs (isSentinel_eq_false hstart hend hesc)).trans (storeOrExhausted_eq hwf hcur (~~~b))

/-- Settles O35: the two cells of corruption. -/
theorem decPutCorruption : Obligations.DecPutCorruption := fun _ _ hs hb => execDecPut_corrupt hs hb

/-- Settles O36: below the cursor the invariant gives the byte. -/
theorem decReadResult : Obligations.DecReadResult := by
  intro s i h
  refine ⟨fun hi => ?_, execDecRead_above⟩
  obtain ⟨v, hv, hread⟩ := Inv_read_dbuf h hi
  exact ⟨v, hv, next_answer_of .ok (execDecRead_below hi hread) (by omega)⟩

/-- Settles O37: the cursor fits `VALUE`, so the word is R74's layout of `OK`, `DSTATE`, `MODE` and the cursor. -/
theorem decStatResult : Obligations.DecStatResult := by
  intro s hwf hcur
  have hvalue : (BitVec.ofNat 24 s.dcur).toNat = s.dcur := by
    have := decCap_lt hwf
    rw [BitVec.toNat_ofNat]; omega
  show Host.Outcome.next (answer _ s) = _
  rw [answer, toWord_eq_replyWord, ← modeBit_toNat]
  simp only [Response.of, hvalue]
  cases s.dstate <;> rfl

end Sys2Proof.Machine
end

section
/-! What every DEC.PUT's response says of the state (`42_decoder.md` R149), a frame that is completed again (R135), and
DEC.PUTN (R145). -/

namespace Sys2Proof.Machine

/-! ### One DEC.PUT -/

/-- Settles O38: by the ways a DEC.PUT can end. -/
theorem decoderFailuresAreAsymmetric : Obligations.DecoderFailuresAreAsymmetric := by
  intro b s t e
  cases execDecPut_next e with
  | exhausted => exact ⟨_, rfl, by simp [Response.of], fun _ => rfl, by simp [Response.of]⟩
  | failed | corrupt => exact ⟨_, rfl, by simp [Response.consumed], by simp [Response.consumed], fun _ => rfl⟩
  | begun | discarded | restarted | completed | escape | stored =>
    exact ⟨_, rfl, by simp [Response.consumed], by simp [Response.consumed], by simp [Response.consumed]⟩

/-- A response is read back from its word in the log. -/
theorem eq_of_answer_responses {r r' : Response} {s u : State} (hu : u.responses = s.responses)
    (h : (answer r u).responses = s.responses ++ [r'.toWord]) : r = r' := by
  rw [answer_responses, hu, List.append_cancel_left_eq, List.singleton_inj] at h
  exact Option.some.inj ((ofWord_toWord r).symm.trans ((congrArg Response.ofWord h).trans (ofWord_toWord r')))

/-- Only END in Accepting, after a validation that succeeds, answers `FRAME`, and it changes nothing. -/
theorem execDecPut_frame {b : Byte} {s t : State} {len : Nat} (e : execDecPut b s = .next t)
    (h : t.responses = s.responses ++ [(Response.consumed .frame len).toWord]) :
    t = answer (.consumed .frame len) s ∧ s.dstate = .accepting ∧ ∃ n, validate s = .ok (some n) ∧
      Response.consumed .frame n = .consumed .frame len := by
  cases execDecPut_next e with
  | completed n hs _ hv =>
    have hr := eq_of_answer_responses rfl h
    exact ⟨by rw [hr], hs, n, hv, hr⟩
  | begun | discarded | restarted | failed | escape | corrupt | exhausted | stored =>
    exact absurd (congrArg Response.status (eq_of_answer_responses rfl h)) nofun

theorem validate_answer (r : Response) (s : State) : validate (answer r s) = validate s :=
  validate_withParts s s.encPart s.inputs _

/-- Settles O39: `FRAME` changed nothing but the log, so END finds the same collected bytes. -/
theorem repeatedEndRepeatsTheFrame : Obligations.RepeatedEndRepeatsTheFrame := by
  intro s t len hlen e hresp
  have hword : (Response.consumed .frame len).toWord = replyWord 0x1 1 0 0 len := consumed_toWord hlen
  rw [← hword] at hresp ⊢
  obtain ⟨rfl, hs, n, hv, hn⟩ := execDecPut_frame e hresp
  have hagain := (execDecPut_end (s := answer (.consumed .frame len) s) hs).trans
    (cellAcceptingEnd_valid ((validate_answer _ s).trans hv))
  rwa [hn] at hagain

/-! ### DEC.PUTN -/

/-- No command stops in a state that meets the invariant. -/
theorem exec_goes_on {s : State} (h : s.Inv) (i : Instr) : ∃ t, exec i s = .next t := by
  obtain ⟨t, -, ht, -, -⟩ := exec_same (.refl s) h i
  exact ⟨t, ht⟩

theorem lastResponse_of_responses {t : State} {l : List Word} {r : Response} (h : t.responses = l ++ [r.toWord]) :
    lastResponse t = some r := by
  rw [lastResponse, h, List.getLast?_concat]
  exact ofWord_toWord r

theorem isOkWord_toWord {r : Response} (hok : r.status = .ok) : isOkWord r.cons r.toWord = true := by
  rw [isOkWord, toWord_status, toWord_cons, hok, beq_self_eq_true, Bool.and_true]; rfl

section
variable {b : Byte} {s t : State} {r : Response} (e : exec (.decPut b) s = .next t) (hr : lastResponse t = some r)
include e hr

theorem decPutN_cons_ok (hok : r.status = .ok) {bs : List Byte} {u : State} {stop : Option Response} {count : Nat}
    (hbs : decPutN bs t = .next (u, stop, count)) : decPutN (b :: bs) s = .next (u, stop, count + 1) := by
  simp only [decPutN, e, hr, if_pos hok, hbs]

/-- The byte that stops DEC.PUTN is counted unless it is `EXHAUSTED`, which alone has CONS = 0 (R149). -/
theorem decPutN_cons_stops (hstop : r.status ≠ .ok) (hcons : r.cons = false ↔ r.status = .exhausted) (bs : List Byte) :
    decPutN (b :: bs) s = .next (t, some r, if r.status = .exhausted then 0 else 1) := by
  simp only [decPutN, e, hr, if_neg hstop, ← hcons]
  cases r.cons <;> rfl

end

/-- Settles O40: by induction on the bytes; the invariant keeps each DEC.PUT going. -/
theorem decPutNCountsConsumedBytes : Obligations.DecPutNCountsConsumedBytes := by
  intro bytes
  induction bytes with
  | nil => exact fun s _ => .inl ⟨s, [], rfl, rfl, (List.append_nil _).symm, rfl⟩
  | cons b bs ih =>
    intro s h
    obtain ⟨t, e⟩ := exec_goes_on h (.decPut b)
    obtain ⟨r, hresp, hcons, -, -⟩ := decoderFailuresAreAsymmetric b s t e
    have hr := lastResponse_of_responses hresp
    by_cases hok : r.status = .ok
    · have htrue : r.cons = true := by
        rw [← Bool.not_eq_false, hcons, hok]
        nofun
      have hword : isOkWord true r.toWord = true := htrue ▸ isOkWord_toWord hok
      have hwords {oks : List Word} (hall : oks.all (isOkWord true) = true) :
          (r.toWord :: oks).all (isOkWord true) = true := by rw [List.all_cons, hword, hall]; rfl
      have hlog {u : State} {oks : List Word} (hu : u.responses = t.responses ++ oks) :
          u.responses = s.responses ++ r.toWord :: oks := by rw [hu, hresp, List.append_assoc]; rfl
      rcases ih t (inv_exec h e) with ⟨u, oks, hn, hrun, hu, hall⟩ |
        ⟨before, x, after, v, u, oks, r', hbs, hrun, hv, hall, hx, hu, hstop, hn⟩
      · exact .inl ⟨u, _, decPutN_cons_ok e hr hok hn, (execAll_cons e).trans hrun, hlog hu, hwords hall⟩
      · refine .inr ⟨b :: before, x, after, v, u, _, r', congrArg (b :: ·) hbs, (execAll_cons e).trans hrun, hlog hv,
          hwords hall, hx, hu, hstop, ?_⟩
        rw [decPutN_cons_ok e hr hok hn, List.length_cons, Nat.add_right_comm]
    · refine .inr ⟨[], b, bs, s, t, [], r, rfl, rfl, (List.append_nil _).symm, rfl, e, hresp, hok, ?_⟩
      rw [decPutN_cons_stops e hr hok hcons, List.length_nil, Nat.zero_add]

end Sys2Proof.Machine
end

section
/-! One START more (`42_decoder.md` R147): no command looks at the responses delivered before it, so the commands after a
second START do what they do after the first. -/

namespace Sys2Proof.Machine

/-- A command adds one response, and the same one whatever responses stand before it. -/
theorem exec_withResponses {i : Instr} {s t : State} (e : exec i s = .next t) :
    ∃ w, t.responses = s.responses ++ [w] ∧
      ∀ l, exec i { s with responses := l } = .next { t with responses := l ++ [w] } := by
  cases hi : isEncCommand i with
  | true =>
    rcases exec_encoderLocal s hi with ⟨x, hx⟩ | ⟨r, enc, hr⟩
    · exact absurd (e.symm.trans (hx s.decPart s.inputs s.responses)) nofun
    · cases e.symm.trans (hr s.decPart s.inputs s.responses)
      exact ⟨r.toWord, rfl, fun l => hr s.decPart s.inputs l⟩
  | false =>
    rcases exec_decoderLocal s hi with ⟨x, hx⟩ | ⟨r, dec, hr⟩
    · exact absurd (e.symm.trans (hx s.encPart s.inputs s.responses)) nofun
    · cases e.symm.trans (hr s.encPart s.inputs s.responses)
      exact ⟨r.toWord, rfl, fun l => hr s.encPart s.inputs l⟩

theorem execAll_next_cons {i : Instr} {is : List Instr} {s t : State} (e : execAll (i :: is) s = .next t) :
    ∃ u, exec i s = .next u ∧ execAll is u = .next t := by
  rw [execAll] at e
  split at e
  · next u hu => exact ⟨u, hu, e⟩
  · cases e
  · cases e

/-- Commands add the same responses whatever responses stand before them. -/
theorem execAll_withResponses {is : List Instr} {s t : State} (e : execAll is s = .next t) :
    ∃ new, t.responses = s.responses ++ new ∧
      ∀ l, execAll is { s with responses := l } = .next { t with responses := l ++ new } := by
  induction is generalizing s with
  | nil => cases e; exact ⟨[], (List.append_nil _).symm, fun l => by rw [List.append_nil]; rfl⟩
  | cons i is ih =>
    obtain ⟨u, hu, ht⟩ := execAll_next_cons e
    obtain ⟨w, hw, hone⟩ := exec_withResponses hu
    obtain ⟨new, hnew, hrest⟩ := ih ht
    refine ⟨w :: new, by rw [hnew, hw, List.append_assoc]; rfl, fun l => ?_⟩
    rw [execAll_cons (hone l), hrest, List.append_assoc]; rfl

/-- START begins a frame from every state of the decoder that meets R28. -/
theorem exec_start {s : State} (h28 : s.dstate = .waitingForStart → s.dcur = 0) :
    exec (.decPut 0x02#8) s = .next { s with
      dstate := .accepting, dcur := 0, responses := s.responses ++ [0x08000000#32] } := by
  by_cases hs : s.dstate = .waitingForStart
  · have hput := decPutWhileWaiting s 0x02#8 hs
    rwa [if_pos rfl, h28 hs] at hput
  · exact execDecPut_restart hs

/-- Settles O49: the second START finds (Accepting, 0) and leaves it. -/
theorem extraStartChangesNothing : Obligations.ExtraStartChangesNothing := by
  intro s further h28
  have hfirst := exec_start h28
  refine ⟨hfirst, fun t e => ?_⟩
  obtain ⟨u, hu, ht⟩ := execAll_next_cons e
  cases hfirst.symm.trans hu
  obtain ⟨new, hnew, hrest⟩ := execAll_withResponses ht
  refine ⟨0x08000000#32 :: new, hnew.trans (List.append_assoc _ _ _), ?_⟩
  have hsecond := exec_start (s := { s with
    dstate := .accepting, dcur := 0, responses := s.responses ++ [0x08000000#32] }) fun _ => rfl
  rw [execAll_cons hfirst, execAll_cons hsecond]
  exact (hrest _).trans (by simp)

end Sys2Proof.Machine
end

section
/-! Frames fed to the decoder byte by byte (`42_decoder.md` R148 to R152): what it has collected after each wire form, and
the verdict at END. -/

namespace Sys2Proof.Machine

/-! ### Bytes fed to the decoder -/

/-- The bytes, put one after another, take `s` to `t` with these answers, and touch neither the build nor the encoder. -/
structure Fed (bytes : List Byte) (answers : List Word) (s t : State) : Prop where
  run : execAll (bytes.map .decPut) s = .next t
  responses : t.responses = s.responses ++ answers
  answered : answers.length = bytes.length
  cfg : t.cfg = s.cfg
  encPart : t.encPart = s.encPart

theorem fed_nil (s : State) : Fed [] [] s s := ⟨rfl, (List.append_nil _).symm, rfl, rfl, rfl⟩

theorem fed_one {b : Byte} {w : Word} {s t : State} (e : exec (.decPut b) s = .next t)
    (h : t.responses = s.responses ++ [w]) : Fed [b] [w] s t :=
  ⟨execAll_cons e, h, rfl, (exec_writesOnly e).cfg, (exec_writesOnly e).encPart rfl⟩

theorem Fed.append {xs ys : List Byte} {as bs : List Word} {s t u : State} (h : Fed xs as s t) (h' : Fed ys bs t u) :
    Fed (xs ++ ys) (as ++ bs) s u where
  run := by rw [List.map_append, execAll_append h.run, h'.run]
  responses := by rw [h'.responses, h.responses, List.append_assoc]
  answered := by rw [List.length_append, List.length_append, h.answered, h'.answered]
  cfg := h'.cfg.trans h.cfg
  encPart := h'.encPart.trans h.encPart

/-! ### What the decoder has collected -/

/-- The decoder is in a frame of which it has collected these bytes. -/
structure Collected (bytes : List Byte) (s : State) : Prop where
  dstate : s.dstate = .accepting
  dcur : s.dcur = bytes.length
  dbuf : s.dbuf.holds bytes

/-- A byte stored after those collected. -/
theorem Collected.stored {bytes : List Byte} {s : State} (h : Collected bytes s) (v : Byte) (l : List Word) :
    Collected (bytes ++ [v]) { s with
      dbuf := s.dbuf.write s.dcur v, dcur := s.dcur + 1, dstate := .accepting, responses := l } where
  dstate := rfl
  dcur := by rw [h.dcur, List.length_append]; rfl
  dbuf := by rw [h.dcur]; exact holds_write h.dbuf v

theorem isOkWord_consumed (v : Nat) : isOkWord true (Response.consumed .ok v).toWord = true := isOkWord_toWord rfl

section
variable {bytes : List Byte} {s : State} (h : Collected bytes s) (hroom : bytes.length < decCap s.cfg)
include h hroom

theorem Collected.room : s.dcur < decCap s.cfg := by rwa [h.dcur]

/-- A plain byte is collected (R137). -/
theorem Collected.feed_plain {b : Byte} (hb : isSentinel b = false) :
    ∃ t, Fed [b] [(Response.consumed .ok (bytes.length + 1)).toWord] s t ∧ Collected (bytes ++ [b]) t := by
  have hput := (execDecPut_plain h.dstate hb).trans (storeOrExhausted_room (h.room hroom))
  exact ⟨_, fed_one hput (by rw [h.dcur]; rfl), h.stored b _⟩

/-- A sentinel's wire form, ESC and its complement, is collected as the sentinel (R136, R140). -/
theorem Collected.feed_sentinel {b : Byte} (hb : isSentinel b = true) :
    ∃ t, Fed [escByte, ~~~b] [(Response.consumed .ok bytes.length).toWord,
      (Response.consumed .ok (bytes.length + 1)).toWord] s t ∧ Collected (bytes ++ [b]) t := by
  have hesc := execDecPut_esc h.dstate
  have hput := (execDecPut_complement (s := answer (.consumed .ok s.dcur) { s with dstate := .escaped }) rfl
    (complement_not_sentinel hb)).trans (storeOrExhausted_room (h.room hroom))
  rw [BitVec.not_not] at hput
  rw [← h.dcur]
  exact ⟨_, (fed_one hesc rfl).append (fed_one hput rfl), h.stored b _⟩

/-- The wire form of any byte is collected as the byte. -/
theorem Collected.feed_wireForm (b : Byte) :
    ∃ t oks, Fed (wireForm b) oks s t ∧ oks.all (isOkWord true) = true ∧ Collected (bytes ++ [b]) t := by
  cases hb : isSentinel b with
  | false =>
    obtain ⟨t, hfed, hcoll⟩ := h.feed_plain hroom hb
    exact ⟨t, _, wireForm_plain hb ▸ hfed, by rw [List.all_cons, isOkWord_consumed]; rfl, hcoll⟩
  | true =>
    obtain ⟨t, hfed, hcoll⟩ := h.feed_sentinel hroom hb
    exact ⟨t, _, wireForm_sentinel hb ▸ hfed,
      by rw [List.all_cons, List.all_cons, isOkWord_consumed, isOkWord_consumed]; rfl, hcoll⟩

end

/-- The wire forms of as many bytes as `DBUF` holds are collected as those bytes: by induction, last byte last. -/
theorem feed_wireForms {s : State} (h : Collected [] s) (bytes : List Byte) (hlen : bytes.length ≤ decCap s.cfg) :
    ∃ t oks, Fed (bytes.flatMap wireForm) oks s t ∧ oks.all (isOkWord true) = true ∧ Collected bytes t := by
  induction bytes using List.reverseRecOn with
  | nil => exact ⟨s, [], fed_nil s, rfl, h⟩
  | append_singleton bs b ih =>
    rw [List.length_append, List.length_singleton] at hlen
    obtain ⟨t, oks, hfed, hall, hcoll⟩ := ih (by omega)
    obtain ⟨u, oks', hfed', hall', hcoll'⟩ := hcoll.feed_wireForm (by rw [hfed.cfg]; omega) b
    refine ⟨u, oks ++ oks', ?_, by rw [List.all_append, hall, hall']; rfl, hcoll'⟩
    rw [List.flatMap_append, List.flatMap_singleton]
    exact hfed.append hfed'

/-- Plain bytes are collected as they are, and each answer counts them (R137). -/
theorem feed_plains {s : State} (h : Collected [] s) (bytes : List Byte) (hlen : bytes.length ≤ decCap s.cfg)
    (hplain : ∀ b ∈ bytes, isSentinel b = false) :
    ∃ t, Fed bytes ((List.range bytes.length).map fun k => (Response.consumed .ok (k + 1)).toWord) s t ∧
      Collected bytes t := by
  induction bytes using List.reverseRecOn with
  | nil => exact ⟨s, fed_nil s, h⟩
  | append_singleton bs b ih =>
    rw [List.length_append, List.length_singleton] at hlen
    obtain ⟨t, hfed, hcoll⟩ := ih (by omega) fun x hx => hplain x (List.mem_append_left _ hx)
    obtain ⟨u, hfed', hcoll'⟩ := hcoll.feed_plain (by rw [hfed.cfg]; omega) (hplain b (by simp))
    refine ⟨u, ?_, hcoll'⟩
    rw [List.length_append, List.length_singleton, List.range_succ, List.map_append]
    exact hfed.append hfed'

/-! ### A frame up to its END, and END -/

/-- START and the wire forms of as many bytes as `DBUF` holds, from any state of the decoder that meets R28. -/
theorem feed_frame {s : State} (h28 : s.dstate = .waitingForStart → s.dcur = 0) (bytes : List Byte)
    (hlen : bytes.length ≤ decCap s.cfg) :
    ∃ t oks, Fed (startByte :: bytes.flatMap wireForm) oks s t ∧ oks.all (isOkWord true) = true ∧
      Collected bytes t := by
  have hstart := fed_one (exec_start h28) rfl
  obtain ⟨t, oks, hfed, hall, hcoll⟩ := feed_wireForms (s := { s with
    dstate := .accepting, dcur := 0, responses := s.responses ++ [0x08000000#32] }) ⟨rfl, rfl, holds_nil _⟩ bytes hlen
  exact ⟨t, _, hstart.append hfed, by rw [List.all_append, hall]; rfl, hcoll⟩

theorem Collected.exec_end {bytes : List Byte} {s : State} (h : Collected bytes s) (hwf : s.cfg.wf)
    (hlen : bytes.length ≤ decCap s.cfg) :
    exec (.decPut 0x03#8) s = .next (afterEnd (verdict s.cfg.decMode bytes) s) :=
  exec_end_of_holds hwf h.dstate h.dbuf h.dcur (h.dcur ▸ hlen)

/-- The word END is answered with, from what validation says (R135). -/
def endWord (v : Option Nat) : Word :=
  match v with
  | some len => replyWord 0x1 1 0 0 len
  | none => 0x58000000#32

theorem afterEnd_responses (v : Option Nat) (s : State) : (afterEnd v s).responses = s.responses ++ [endWord v] := by
  cases v <;> rfl

/-- A whole frame of as many bytes as `DBUF` holds: `OK` to every byte but END, and to END the verdict's word. -/
theorem decode_frame {s : State} (hwf : s.cfg.wf) (h28 : s.dstate = .waitingForStart → s.dcur = 0) (bytes : List Byte)
    (hlen : bytes.length ≤ decCap s.cfg) :
    ∃ t oks, Fed (startByte :: (bytes.flatMap wireForm ++ [endByte])) (oks ++ [endWord (verdict s.cfg.decMode bytes)])
        s (afterEnd (verdict s.cfg.decMode bytes) t) ∧
      oks.all (isOkWord true) = true ∧ Collected bytes t := by
  obtain ⟨t, oks, hfed, hall, hcoll⟩ := feed_frame h28 bytes hlen
  have hend := hcoll.exec_end (by rwa [hfed.cfg]) (by rwa [hfed.cfg])
  rw [hfed.cfg] at hend
  exact ⟨t, oks, hfed.append (fed_one hend (afterEnd_responses _ t)), hall, hcoll⟩

theorem holds_of_append {m : Memory} {xs ys : List Byte} (h : m.holds (xs ++ ys)) : m.holds xs := fun i hi => by
  rw [h i (by rw [List.length_append]; omega), List.getElem?_append_left hi]

/-- Settles O47: the frame's wire forms are collected as the payload and its trailer, which END finds to match. -/
theorem decoderReturnsThePayload : Obligations.DecoderReturnsThePayload := by
  intro payload s hwf h28 hpayload
  have hbytes := payload_trailer_length_le hpayload
  obtain ⟨t, oks, hfed, hall, hcoll⟩ := decode_frame hwf h28 (payload ++ trailer payload s.cfg.decMode)
    (by rw [List.length_append]; exact hbytes)
  rw [verdict_payload_trailer] at hfed
  refine ⟨_, oks, hfed.run, holds_of_append hcoll.dbuf, ?_, ?_, ?_, hall, hfed.encPart⟩
  · show _ ≤ t.dcur
    rw [hcoll.dcur, List.length_append]
    exact Nat.le_add_right _ _
  · rw [List.append_assoc]; exact hfed.responses
  · exact (List.length_append ..).symm.trans hfed.answered

/-- Settles O48: ENC.FRAME leaves the payload's frame below the cursor and the decoder as it was (R108), and the decoder
gives the payload of a frame back (R148). -/
theorem encodeThenDecodeReturnsThePayload : Obligations.EncodeThenDecodeReturnsThePayload := by
  intro payload s h hmode hpayload
  obtain ⟨t, _, henc, hebuf, hecur, -, -, -, hdec, hcfg⟩ := encoderBuildsTheFrame payload s h.build hpayload
  have h28 : t.dstate = .waitingForStart → t.dcur = 0 := by
    obtain ⟨-, hdcur, hdstate⟩ : t.dbuf = s.dbuf ∧ t.dcur = s.dcur ∧ t.dstate = s.dstate := by
      simpa [State.decPart] using hdec
    rw [hdcur, hdstate]
    exact h.waitingEmpty
  rw [hmode, ← hcfg] at hpayload hebuf hecur
  obtain ⟨u, oks, hrun, hdbuf, -, hresp, -⟩ := decoderReturnsThePayload payload t (hcfg ▸ h.build) h28 hpayload
  exact ⟨t, u, _, henc, hecur.symm, hebuf, hrun, hdbuf, by rw [hresp, List.getLast?_concat]⟩

/-- A plain byte inside a frame finds the buffer full: nothing changes (R137, R140). -/
theorem exec_full {s : State} {b : Byte} (hwf : s.cfg.wf) (hs : s.dstate ≠ .waitingForStart) (hb : isSentinel b = false)
    (hfull : s.dcur = decCap s.cfg) : exec (.decPut b) s =
      .next { s with responses := s.responses ++ [replyWord 0x3 0 0 0 (decCap s.cfg)] } := by
  rw [← hfull]
  refine next_answer_of .exhausted ?_ (hfull ▸ decCap_lt hwf)
  cases hd : s.dstate with
  | waitingForStart => exact absurd hd hs
  | accepting => exact (execDecPut_plain hd hb).trans (storeOrExhausted_full hfull.ge)
  | escaped => exact (execDecPut_complement hd hb).trans (storeOrExhausted_full hfull.ge)

/-- Settles O50: `DEC_CAP` plain bytes fill the buffer; from there each byte's cell is read off. -/
theorem overflowBoundary : Obligations.OverflowBoundary := by
  intro s bytes x hwf hs hcur hlen hbytes hx
  have hcap := decCap_lt hwf
  have hx := classify_eq_other.mp hx
  obtain ⟨t, hfed, hcoll⟩ := feed_plains (s := s) ⟨hs, hcur, holds_nil _⟩ bytes hlen.le
    fun b hb => classify_eq_other.mp (hbytes b hb)
  have hdcur : t.dcur = decCap s.cfg := hcoll.dcur.trans hlen
  have hfull : t.dcur = decCap t.cfg := by rw [hfed.cfg, hdcur]
  have hwf' : t.cfg.wf := by rwa [hfed.cfg]
  have hwords : (List.range bytes.length).map (fun k => (Response.consumed .ok (k + 1)).toWord) =
      (List.range (decCap s.cfg)).map fun k => replyWord 0x0 1 0 0 (k + 1) := by
    rw [hlen]
    exact List.map_congr_left fun k hk => consumed_toWord (by have := List.mem_range.mp hk; omega)
  refine ⟨t, hfed.run, hwords ▸ hfed.responses, hdcur, hcoll.dbuf, ?_, ?_, ?_⟩
  · rw [← hfed.cfg]
    exact exec_full hwf' (by simp [hcoll.dstate]) hx hfull
  · rw [← hfed.cfg, ← hfull]
    have hput := exec_full (s := { t with
      dstate := .escaped, responses := t.responses ++ [replyWord 0x0 1 0 0 t.dcur] }) hwf' nofun hx hfull
    rw [← hfull] at hput
    refine (execAll_pair (decPutEscape t hwf' hcoll.dstate hfull.le) hput).trans ?_
    rw [List.append_assoc]; rfl
  · have hend := hcoll.exec_end hwf' (by rw [hfed.cfg, hlen])
    rw [hfed.cfg] at hend
    rw [hend]
    cases hm : s.cfg.decMode with
    | withoutCrc => rw [verdict, hlen, if_pos rfl]; rfl
    | withCrc =>
      rw [verdict_long (by rw [hlen, decCap_eq]; omega), hlen, if_neg (by decide : ¬Mode.withCrc = .withoutCrc)]
      split <;> rfl

/-- Settles O51: a frame of either mode is the frame of the bytes collected, and END judges them by the
decoder's own mode. -/
theorem mismatchedModes : Obligations.MismatchedModes := by
  intro payload s hwf h28
  refine ⟨fun hm hlen => ?_, fun hm hlen => ?_⟩
  · have htrailer := beBytes_length (crc payload)
    obtain ⟨t, oks, hfed, -, hcoll⟩ := decode_frame hwf h28 (payload ++ beBytes (crc payload))
      (by rw [List.length_append, htrailer, decCap_eq]; omega)
    rw [hm, verdict, List.length_append, htrailer] at hfed
    exact ⟨_, hfed.run, hcoll.dbuf, by rw [hfed.responses, ← List.append_assoc, List.getLast?_concat]; rfl⟩
  · obtain ⟨t, oks, hfed, -, hcoll⟩ := decode_frame hwf h28 payload hlen
    have hframe : frame payload .withoutCrc = startByte :: (payload.flatMap wireForm ++ [endByte]) := by
      rw [frame, frameBody, trailer, List.append_nil]
    refine ⟨_, hframe ▸ hfed.run, ?_⟩
    rw [hfed.responses, ← List.append_assoc, List.getLast?_concat, hm]
    by_cases hlong : 4 ≤ payload.length
    · rw [verdict_long hlong]
      simp only [hlong, true_and]
      split <;> rfl
    · rw [verdict_short (by omega), if_neg fun h => hlong h.1]; rfl

end Sys2Proof.Machine
end

section
/-! Error detection by the CRC (`43_crc.md` R171 to R178): the register step loses nothing, neither of the register nor of
the byte, so a single wrong byte shows in the CRC whatever follows it. -/

namespace Sys2Proof.Machine

/-! ### The standard form of the CRC -/

/-- `CRC_UPDATE` is `CRC_STEP` seen through the complement, so complements are taken only before the first byte and after
the last (R173). -/
theorem foldl_crcUpdate_not (r : Word) (bytes : List Byte) :
    bytes.foldl crcUpdate (~~~r) = ~~~(bytes.foldl crcStep r) :=
  List.foldl_hom (~~~·) fun r b => by rw [crcUpdate, BitVec.not_not]

/-- Settles O44: the folds agree through the complement, and the check value is a fold over nine bytes. -/
theorem crcIsTheStandardCrc : Obligations.CrcIsTheStandardCrc :=
  ⟨foldl_crcUpdate_not 0xFFFFFFFF#32, by decide +kernel, rfl⟩

/-! ### The register step is injective -/

/-- The polynomial's bit 31 is set and the shift leaves bit 31 clear, so bit 31 tells which branch was taken (R171). -/
theorem getLsbD_crcBit_31 (r : Word) : (crcBit r).getLsbD 31 = r.getLsbD 0 := by
  unfold crcBit
  split
  · next hodd => simp [hodd]
  · next heven => simpa using heven

theorem crcBit_injective : Function.Injective crcBit := by
  intro r q h
  have hlow : r.getLsbD 0 = q.getLsbD 0 := by rw [← getLsbD_crcBit_31, h, getLsbD_crcBit_31]
  have hshift : r >>> 1 = q >>> 1 := by
    unfold crcBit at h
    rw [hlow] at h
    split at h
    · exact (BitVec.xor_left_inj _).mp h
    · exact h
  apply BitVec.eq_of_getLsbD_eq
  intro i hi
  cases i with
  | zero => exact hlow
  | succ j =>
    have := congrArg (BitVec.getLsbD · j) hshift
    simpa [Nat.add_comm 1 j] using this

theorem repeat_crcBit_injective (n : Nat) : Function.Injective (Nat.repeat crcBit n) := by
  induction n with
  | zero => exact fun _ _ h => h
  | succ n ih => exact crcBit_injective.comp ih

theorem crcUpdate_eq_iff (a a' : Word) (b b' : Byte) :
    crcUpdate a b = crcUpdate a' b' ↔ ~~~a ^^^ b.setWidth 32 = ~~~a' ^^^ b'.setWidth 32 := by
  rw [crcUpdate, crcUpdate, BitVec.not_inj, crcStep, crcStep, (repeat_crcBit_injective 8).eq_iff]

theorem crcUpdate_left_injective (b : Byte) : Function.Injective (crcUpdate · b) := fun a a' h => by
  simpa using (crcUpdate_eq_iff a a' b b).mp h

theorem crcUpdate_right_injective (a : Word) : Function.Injective (crcUpdate a) := fun b b' h => by
  have h := (crcUpdate_eq_iff a a b b').mp h
  rw [BitVec.xor_right_inj] at h
  simpa using congrArg (BitVec.setWidth 8) h

theorem foldl_crcUpdate_injective (bytes : List Byte) : Function.Injective (bytes.foldl crcUpdate ·) := by
  induction bytes with
  | nil => exact fun _ _ h => h
  | cons b bytes ih => exact ih.comp (crcUpdate_left_injective b)

/-- The bytes after a position act on the CRC of what stands before and at it. -/
theorem crc_append_cons (before after : List Byte) (b : Byte) :
    crc (before ++ b :: after) = after.foldl crcUpdate (crcUpdate (crc before) b) := by
  rw [crc, crcFinal, List.foldl_append]; rfl

theorem crc_append_cons_inj {before after : List Byte} {x y : Byte} :
    crc (before ++ x :: after) = crc (before ++ y :: after) ↔ x = y := by
  rw [crc_append_cons, crc_append_cons, (foldl_crcUpdate_injective after).eq_iff, (crcUpdate_right_injective _).eq_iff]

/-- Settles O45: every update after the differing bytes keeps their difference. -/
theorem crcTellsOneByteApart : Obligations.CrcTellsOneByteApart := fun _ _ _ _ => mt crc_append_cons_inj.mp

/-! ### One wrong byte in a collected frame -/

/-- The byte read last stands in the low eight bits (R45). -/
theorem extractLsb'_shiftIn_low (a : Word) (b : Byte) : ((a <<< 8) ||| b.setWidth 32).extractLsb' 0 8 = b := by
  ext i hi
  simp [hi, show i < 32 by omega]

/-- The bytes read before it stand eight bits higher (R45). -/
theorem extractLsb'_shiftIn_high (a : Word) (b : Byte) {k : Nat} (hk : k + 16 ≤ 32) :
    ((a <<< 8) ||| b.setWidth 32).extractLsb' (k + 8) 8 = a.extractLsb' k 8 := by
  ext i hi
  have hbyte : b.getLsbD (k + 8 + i) = false := BitVec.getLsbD_of_ge _ _ (by omega)
  simp [hbyte, show k + 8 + i < 32 by omega, show ¬ k + 8 + i < 8 by omega, show k + 8 + i - 8 = k + i by omega, BitVec.getLsbD_eq_getElem (show k + i < 32 by omega)]

/-- Four bytes are the big-endian bytes of the value read from them (R44, R45). -/
theorem beBytes_beWord {tail : List Byte} (h : tail.length = 4) : beBytes (beWord tail) = tail := by
  obtain ⟨b3, b2, b1, b0, rfl⟩ := List.length_eq_four.mp h
  simp (disch := decide) only [beBytes, beWord, List.foldl, extractLsb'_shiftIn_low, extractLsb'_shiftIn_high]

theorem crc_set_inj {bytes : List Byte} {k : Nat} (hk : k < bytes.length) {x : Byte} :
    crc (bytes.set k x) = crc bytes ↔ x = bytes[k] := by
  rw [← crc_append_cons_inj (before := bytes.take k) (after := bytes.drop (k + 1)), ← List.drop_eq_getElem_cons hk,
    List.take_append_drop, List.set_eq_take_append_cons_drop, if_pos hk]

/-- Validation turns down a payload with its trailer once a byte of either is changed (R141, R178). -/
theorem verdict_set_wrong_byte {payload : List Byte} {k : Nat} {x : Byte}
    (hx : (payload ++ beBytes (crc payload))[k]? ≠ some x) (hk : k < payload.length + 4) :
    verdict .withCrc ((payload ++ beBytes (crc payload)).set k x) = none := by
  by_cases hp : k < payload.length
  · rw [List.set_append_left _ _ hp, verdict_append _ (beBytes_length _), beWord_beBytes, if_neg]
    intro hcrc
    rw [List.getElem?_append_left hp, List.getElem?_eq_getElem hp] at hx
    exact hx (congrArg some ((crc_set_inj hp).mp hcrc.symm).symm)
  · have hlen : ((beBytes (crc payload)).set (k - payload.length) x).length = 4 := List.length_set
    rw [List.set_append_right _ _ (by omega), verdict_append _ hlen, if_neg]
    intro hcrc
    have htail := beBytes_beWord hlen
    rw [hcrc] at htail
    rw [List.getElem?_append_right (by omega), htail, List.getElem?_set_self (by rw [beBytes_length]; omega)] at hx
    exact hx rfl

/-- Settles O52: END goes by the verdict on the bytes held, and one byte changed makes it a rejection. -/
theorem oneByteErrorIsRejected : Obligations.OneByteErrorIsRejected := by
  intro s payload k x hwf hm hs hcur hlen hk hx hb
  have hend := exec_end_of_holds hwf hs hb (by rw [hlen, List.length_set, List.length_append, beBytes_length]) hcur
  rwa [hm, verdict_set_wrong_byte hx (hlen ▸ hk)] at hend

end Sys2Proof.Machine
end

section
/-! The reset input (`70_reset_and_hazards.md` R230, R231). What the hardware reset leaves is the build's reset state,
so nothing a command did before it, a caught one's effect included, is left in it. -/

namespace Sys2Proof.Machine

/-- Of the state before it, the hardware reset keeps the build and the two logs alone (R230, log entry 5). -/
theorem hardwareReset_eq_resetOf (s : State) :
    hardwareReset s = { State.resetOf s.cfg with inputs := s.inputs, responses := s.responses } := rfl

theorem hardwareReset_congr {s t : State} (hcfg : t.cfg = s.cfg) (hin : t.inputs = s.inputs)
    (hresp : t.responses = s.responses) : hardwareReset t = hardwareReset s := by
  rw [hardwareReset_eq_resetOf, hardwareReset_eq_resetOf, hcfg, hin, hresp]

theorem step_reset {s : State} {rest : List HostInput} (hs : s.inputs = .reset :: rest) :
    step s = .next (hardwareReset { s with inputs := rest }) :=
  step_input hs

/-! ### The reset between commands -/

theorem execAll_encReset_decReset (s : State) :
    execAll [.encReset, .decReset] s =
      .next (answer (.of .ok 0) (decFullReset (answer (.of .ok 1) (encFullReset s)))) :=
  execAll_pair rfl rfl

/-- The two command resets leave old bytes above the cursors where the hardware reset leaves none; byte 0 of `EBUF`, the
one byte a host can still read, is START after both. -/
theorem decFullReset_encFullReset_sameToHost (s : State) :
    SameToHost (decFullReset (encFullReset s)) (hardwareReset s) where
  cfg := rfl
  ecur := rfl
  eacc := rfl
  dcur := rfl
  dstate := rfl
  inputs := rfl
  responses := rfl
  ebuf i hi := by
    obtain rfl : i = 0 := by simpa using hi
    exact read_write_self s.ebuf 0 startByte
  dbuf _ hi := absurd hi (Nat.not_lt_zero _)

/-- Settles O14: the values of R230, then the comparison with `ENC.RESET` and `DEC.RESET` for the host that does not see
their responses. -/
theorem hardwareResetState : Obligations.HardwareResetState := by
  intro s rest hs
  refine ⟨_, step_reset hs, rfl, rfl, rfl, rfl, rfl, rfl, rfl, rfl, _, execAll_encReset_decReset _, ?_⟩
  exact decFullReset_encFullReset_sameToHost { s with inputs := rest }

/-! ### The reset during a command -/

theorem transact_cfg_inputs {w : Word} {s t : State} (e : transact w s = .next t) :
    t.cfg = s.cfg ∧ t.inputs = s.inputs := by
  cases hw : decode w with
  | ok i =>
    have hframe := exec_writesOnly (transact_legal hw s ▸ e)
    exact ⟨hframe.cfg, hframe.inputs⟩
  | error x =>
    rw [transact_illegal hw] at e
    cases e
    exact ⟨rfl, rfl⟩

theorem step_resetDuring {w : Word} {completed : Bool} {s : State} {rest : List HostInput}
    (hs : s.inputs = .resetDuring w completed :: rest) :
    step s = caughtByReset w completed { s with inputs := rest } :=
  step_input hs

/-- Complete or absent, a caught command that can be served leaves the state of the reset alone (R231,
`93_implementation_defined.md` I10). -/
theorem caughtByReset_eq_hardwareReset {w : Word} {s t : State} (e : transact w s = .next t) (completed : Bool) :
    caughtByReset w completed s = .next (hardwareReset s) := by
  cases completed with
  | false => rfl
  | true =>
    obtain ⟨hcfg, hin⟩ := transact_cfg_inputs e
    exact (caughtByReset_completed e).trans (congrArg Host.Outcome.next (hardwareReset_congr hcfg hin rfl))

/-- Settles O15: from the invariant the command is served, and the reset that meets what it left comes to the same state
as the reset that meets the state before it. -/
theorem caughtCommandIsUnanswered : Obligations.CaughtCommandIsUnanswered := by
  intro s w rest hs
  obtain ⟨t, -, ht, -, -⟩ := transact_same (.refl _) (inv_inputs hs rest) w
  refine ⟨t, hardwareReset { s with inputs := rest }, ht, ?complete, step_reset rfl, fun completed => ?caught, rfl⟩
  case complete =>
    obtain ⟨hcfg, -⟩ := transact_cfg_inputs ht
    exact (step_reset rfl).trans (congrArg Host.Outcome.next (hardwareReset_congr hcfg rfl rfl))
  case caught => exact (step_resetDuring rfl).trans (caughtByReset_eq_hardwareReset ht completed)

end Sys2Proof.Machine
end
